-- ==== Sys2Proof/Word.lean ====
section
/-!
DEFINITION. The words of the hardware and the two packings that every other file uses: 24-bit command words, 32-bit response
words, bytes, 7-bit device addresses. Bit 0 is the least significant bit (R11).
-/

namespace Sys2Proof

/-- One register of the sensor, one operand, one byte on the bus (R10, REG_DATA_BITS). -/
abbrev Byte := BitVec 8

/-- A register address: one byte (R37, REG_ADDR_BITS). -/
abbrev RegAddr := BitVec 8

/-- A 7-bit bus address (R36, DEV_ADDR_BITS). -/
abbrev DevAddr := BitVec 7

/-- The host's command word (R59, CMD_BITS). -/
abbrev CommandWord := BitVec 24

/-- The block's response word (R63, RSP_BITS). -/
abbrev ResponseWord := BitVec 32

/-- A composed reading (R14 RawAxisReading, COMPOSED_BITS). -/
abbrev Reading := BitVec 16

end Sys2Proof
end

