-- ==== Sys2Proof/Config.lean ====
section
/-!
DEFINITION. What stands beside the block and what the spec leaves open: the vocabulary of the bus interface (requests, answers,
error payloads: R38 to R40, R66), the two device addresses' names (R29), and the free values of the environment, constants
with no body (R55, D19, D22, D26, U1, U15).
-/

namespace Sys2Proof

/-- The two strap-selectable device addresses, by name (R14, R29). Their values are in Machine/Operands.lean. -/
inductive AddrSelect where
  | ad0
  | ad1
  deriving DecidableEq, Repr, Inhabited

/-- The transport's error payload `E` (R66, D7): the five kinds the document names and the 250 codes `0x06` to `0xFF` that are
the transport's own. `0x00` is not an error code and has no constructor (assumption 8). Codes: Machine/Flags.lean. -/
inductive BusErr where
  | noAcknowledge
  | arbitrationLoss
  | timeout
  | busBusy
  | malformedTransaction
  | transportDefined (k : Fin 250)
  deriving DecidableEq, Repr, Inhabited

/-- The two request kinds of the transport interface (R38): `BusWrite` (R39) and `BusWriteRead` (R40). -/
inductive BusRequest where
  /-- One write transaction of `bytes`, in order, to `dev` (R39). -/
  | busWrite (dev : DevAddr) (bytes : List Byte)
  /-- One transaction that writes `wbytes` and then reads exactly `n` bytes from the same device (R40). -/
  | busWriteRead (dev : DevAddr) (wbytes : List Byte) (n : Nat)
  deriving DecidableEq, Repr, Inhabited

/-- The device a request is addressed to. -/
def BusRequest.dev : BusRequest → DevAddr
  | .busWrite dev _ => dev
  | .busWriteRead dev _ _ => dev

/-- How many bytes an `Ok` answer to a request carries (R39: none; R40: exactly `n`). -/
def BusRequest.readCount : BusRequest → Nat
  | .busWrite _ _ => 0
  | .busWriteRead _ _ n => n

/-- The one answer to a request (R39, R40): `Ok`, with the bytes read (none for a write), or `Err(e)`. -/
inductive BusAnswer where
  | ok (data : List Byte)
  | err (e : BusErr)
  deriving DecidableEq, Repr, Inhabited

namespace Config

/-- FREE VALUE (TRANSPORT_ANSWERS, D19, U2): whether the unconstrained transport answers the request at this turn. `false`
for ever is the hang of R112. -/
opaque transportAnswers : Nat → BusRequest → Bool

/-- FREE VALUE (R55, U7): the error the unconstrained transport answers with at this turn, or none. -/
opaque transportError : Nat → BusRequest → Option BusErr

/-- FREE VALUE (R55, U1, U9): the byte number `k` of an `Ok` answer of the unconstrained transport at this turn. -/
opaque transportByte : Nat → BusRequest → Nat → Byte

/-- FREE VALUE (R58 with N7): the contents of a register of the ideal device that nothing has set yet. -/
opaque sensorByte : Nat → RegAddr → Byte

/-- PARAMETER WITHOUT A VALUE (R28, D26, U15; assumption 17): the standby pattern. No command uses it. -/
opaque pmStandby : Byte

/-- PARAMETER WITHOUT A VALUE (R28, D26, U15): the low-power pattern. No command uses it. -/
opaque pmLowPower : Byte

/-- PARAMETER WITHOUT A VALUE (R28, D26, U15): the off pattern. No command uses it. -/
opaque pmOff : Byte

end Config

end Sys2Proof
end

