-- ==== Sys2Proof/Syntax.lean ====
section
/-!
DEFINITION. The nine commands, one constructor per row of spec/opcode_table.json (R68).
-/

namespace Sys2Proof

/-- A command of the block (R68). Operands are the fields of R62: whole bytes, or the one address-select bit of `NEW`. -/
inductive Instr where
  /-- `NEW ad` (R91), format A. -/
  | new (ad : AddrSelect)
  /-- `DROP` (R92), format N. -/
  | drop
  /-- `WRITE_REGISTER reg, value` (R79), format RV. -/
  | writeRegister (reg : RegAddr) (value : Byte)
  /-- `READ_REGISTER reg` (R80), format R. -/
  | readRegister (reg : RegAddr)
  /-- `READ_REGISTER_AS_U16 upper, lower` (R85), format RR. -/
  | readRegisterAsU16 (upper lower : RegAddr)
  /-- `SET_ACCEL_LOW_NOISE_MODE` (R93), format N. -/
  | setAccelLowNoiseMode
  /-- `READ_ACCEL_X` (R94), format N. -/
  | readAccelX
  /-- `READ_ACCEL_Y` (R95), format N. -/
  | readAccelY
  /-- `READ_ACCEL_Z` (R96), format N. -/
  | readAccelZ
  deriving DecidableEq, Repr, Inhabited

end Sys2Proof
end

