-- ==== Sys2Proof/WellFormed.lean ====
section
/-!
DEFINITION. Well-formedness. The operand types of `Instr` already hold exactly the values the encodings admit, so every command
is well formed; what can be ill formed is a bus transaction (R73, R36) and an answer to one (R40, D24).
-/

namespace Sys2Proof

/-- The legal device addresses (R10 DEV_ADDR_SET, R17). -/
def DevAddr.legal (d : DevAddr) : Bool := d == 0x68#7 || d == 0x69#7

/-- A transaction of one of the two formats the block issues (R73): W2, a write of exactly two bytes, or WR1, one byte written
and exactly one read; addressed to a legal device address (R36). -/
def BusRequest.wellFormed : BusRequest → Bool
  | .busWrite dev bytes => DevAddr.legal dev && bytes.length == 2
  | .busWriteRead dev wbytes n => DevAddr.legal dev && wbytes.length == 1 && n == 1

/-- An answer of the shape the interface admits for a request (R40, D24): an error, or exactly the bytes asked for. -/
def BusAnswer.fits (q : BusRequest) : BusAnswer → Bool
  | .ok data => data.length == q.readCount
  | .err _ => true

/-- Every operand of every command takes exactly the values its type has: `ad` two (R67), a register address 256 (R83), a value
256 (R83), and the two registers of a composed read are independent (R45). -/
def Instr.wellFormed : Instr → Bool
  | .new _ => true
  | .drop => true
  | .writeRegister _ _ => true
  | .readRegister _ => true
  | .readRegisterAsU16 _ _ => true
  | .setAccelLowNoiseMode => true
  | .readAccelX => true
  | .readAccelY => true
  | .readAccelZ => true

end Sys2Proof
end

