-- ==== Sys2Proof/Decode.lean ====
section
/-!
DEFINITION. The command word: its fields (R61), the decoder (R69, R70), total on every 24-bit word, and the encoder written
from the same table (R68). Then the opcode table as the spec prints it, mask and match.
-/

namespace Sys2Proof

/-! ## Fields (R61) -/

/-- `op = w[23:16]`. -/
def opField (w : CommandWord) : Byte := w.extractLsb' 16 8

/-- `a = w[15:8]`. -/
def aField (w : CommandWord) : Byte := w.extractLsb' 8 8

/-- `b = w[7:0]`. -/
def bField (w : CommandWord) : Byte := w.extractLsb' 0 8

/-- The word `{op, a, b}`. -/
def packWord (op a b : Byte) : CommandWord := BitVec.cast rfl (op ++ a ++ b)

/-! ## Decoding -/

/-- Why a word is illegal (R70): (a) a reserved opcode; (b) a must-be-zero field that is not zero. -/
inductive DecodeError where
  | reservedOpcode (op : Byte)
  | mustBeZero (op : Byte)
  deriving DecidableEq, Repr

/-- Format N: no operand, `a` and `b` must be zero (R62). -/
def decodeFormatN (i : Instr) (op a b : Byte) : Except DecodeError Instr :=
  if a = 0#8 ∧ b = 0#8 then .ok i else .error (.mustBeZero op)

/-- Format A: `a` and `b[7:1]` must be zero, `b[0]` selects the address (R62, R67). -/
def decodeFormatA (mk : AddrSelect → Instr) (op a b : Byte) : Except DecodeError Instr :=
  if a = 0#8 ∧ b = 0#8 then .ok (mk .ad0)
  else if a = 0#8 ∧ b = 1#8 then .ok (mk .ad1)
  else .error (.mustBeZero op)

/-- Format R: `a` is the register, `b` must be zero (R62). -/
def decodeFormatR (mk : RegAddr → Instr) (op a b : Byte) : Except DecodeError Instr :=
  if b = 0#8 then .ok (mk a) else .error (.mustBeZero op)

/-- The decoder on the three fields (R68, R69). -/
def decodeFields (op a b : Byte) : Except DecodeError Instr :=
  if op = 0x01#8 then decodeFormatA .new op a b
  else if op = 0x02#8 then decodeFormatN .drop op a b
  else if op = 0x10#8 then .ok (.writeRegister a b)
  else if op = 0x11#8 then decodeFormatR .readRegister op a b
  else if op = 0x12#8 then .ok (.readRegisterAsU16 a b)
  else if op = 0x20#8 then decodeFormatN .setAccelLowNoiseMode op a b
  else if op = 0x21#8 then decodeFormatN .readAccelX op a b
  else if op = 0x22#8 then decodeFormatN .readAccelY op a b
  else if op = 0x23#8 then decodeFormatN .readAccelZ op a b
  else .error (.reservedOpcode op)

/-- Decoding: a total function on 24-bit words that reads no state (R69). -/
def decode (w : CommandWord) : Except DecodeError Instr := decodeFields (opField w) (aField w) (bField w)

/-- The decoder as the host's check asks for it: the one word of an instruction, numbered as spec/opcode_table.json numbers
it. A command is one 24-bit word, so a number of more bits is no command word. -/
def decodeTableWord (nbits w : Nat) : Option Instr :=
  if w % 2 ^ nbits < 2 ^ 24 then (decode (BitVec.ofNat 24 (w % 2 ^ nbits))).toOption else none

/-! ## Encoding -/

/-- The bit of format A (R67): `ad = 0` for AD0, `ad = 1` for AD1. -/
def AddrSelect.bit : AddrSelect → BitVec 1
  | .ad0 => 0#1
  | .ad1 => 1#1

/-- The opcode of each command (R68). -/
def Instr.opcode : Instr → Byte
  | .new _ => 0x01
  | .drop => 0x02
  | .writeRegister _ _ => 0x10
  | .readRegister _ => 0x11
  | .readRegisterAsU16 _ _ => 0x12
  | .setAccelLowNoiseMode => 0x20
  | .readAccelX => 0x21
  | .readAccelY => 0x22
  | .readAccelZ => 0x23

/-- The word of a command (R62, R68). -/
def encode (i : Instr) : CommandWord :=
  match i with
  | .new ad => packWord i.opcode 0 (ad.bit.setWidth 8)
  | .drop => packWord i.opcode 0 0
  | .writeRegister reg value => packWord i.opcode reg value
  | .readRegister reg => packWord i.opcode reg 0
  | .readRegisterAsU16 upper lower => packWord i.opcode upper lower
  | .setAccelLowNoiseMode => packWord i.opcode 0 0
  | .readAccelX => packWord i.opcode 0 0
  | .readAccelY => packWord i.opcode 0 0
  | .readAccelZ => packWord i.opcode 0 0

/-! ## The opcode table (R68), as printed -/

/-- One row of the table: a word `w` is the command when `w & mask = pattern`. -/
structure OpcodeRow where
  mnemonic : String
  pattern : CommandWord
  mask : CommandWord
  deriving DecidableEq, Repr

/-- The nine rows (R68). -/
def opcodeTable : List OpcodeRow :=
  [⟨"NEW", 0x010000, 0xFFFFFE⟩,
   ⟨"DROP", 0x020000, 0xFFFFFF⟩,
   ⟨"WRITE_REGISTER", 0x100000, 0xFF0000⟩,
   ⟨"READ_REGISTER", 0x110000, 0xFF00FF⟩,
   ⟨"READ_REGISTER_AS_U16", 0x120000, 0xFF0000⟩,
   ⟨"SET_ACCEL_LOW_NOISE_MODE", 0x200000, 0xFFFFFF⟩,
   ⟨"READ_ACCEL_X", 0x210000, 0xFFFFFF⟩,
   ⟨"READ_ACCEL_Y", 0x220000, 0xFFFFFF⟩,
   ⟨"READ_ACCEL_Z", 0x230000, 0xFFFFFF⟩]

/-- Whether a word is the row's command (R68). -/
def OpcodeRow.accepts (r : OpcodeRow) (w : CommandWord) : Bool := w &&& r.mask == r.pattern

/-- The mnemonic of each command (R68, R75). -/
def Instr.mnemonic : Instr → String
  | .new _ => "NEW"
  | .drop => "DROP"
  | .writeRegister _ _ => "WRITE_REGISTER"
  | .readRegister _ => "READ_REGISTER"
  | .readRegisterAsU16 _ _ => "READ_REGISTER_AS_U16"
  | .setAccelLowNoiseMode => "SET_ACCEL_LOW_NOISE_MODE"
  | .readAccelX => "READ_ACCEL_X"
  | .readAccelY => "READ_ACCEL_Y"
  | .readAccelZ => "READ_ACCEL_Z"

end Sys2Proof
end

