-- ==== Sys2Proof/Machine/State.lean ====
section
/-!
DEFINITION. The state of the machine as plain data: the seven registers of the block (R15), the outstanding transaction (R34),
the answered part of the trace (R56), the environment (R32, R33, D22), and what the host and the environment do next (R9).
INVENTORY.md, '## State', lists the same fields with their rules and reset values.
-/

namespace Sys2Proof.Machine

/-- The sequencer phase (R19), the block's only program counter. -/
inductive Phase where
  | idle
  | xfer1
  | xfer2
  deriving DecidableEq, Repr

/-- The sensor's power mode as far as it is known (R33, D23). -/
inductive PowerMode where
  | idle
  | lowNoise
  | unknown
  deriving DecidableEq, Repr

/-- The sensor's register space (R32, R37): the registers whose contents are known, addresses strictly rising. An unlisted
register has no known value (assumption 5). -/
abbrev Memory := List Host.Cell

/-- One answered transaction (R56). -/
structure Transaction where
  req : BusRequest
  answer : BusAnswer
  deriving DecidableEq, Repr

/-- Who answers the requests (D22). -/
inductive Transport where
  /-- The unconstrained environment: any answer, or none yet (R55, R112). -/
  | oracle
  /-- The scripted mock bus with the rest of its script (R57). -/
  | scripted (script : List BusAnswer)
  /-- The ideal register-file device at `dev0`; its registers are the state's `reg` (R58). -/
  | ideal (dev0 : DevAddr)
  deriving DecidableEq, Repr

/-- One move of an agent other than the block (R9; assumption 1). -/
inductive Move where
  /-- The host presents a command word (R59); while the port is not ready it goes on presenting it (R60). -/
  | present (w : CommandWord)
  /-- The host resets the block (R131 row 10). -/
  | hostReset
  /-- The transport has its turn: it answers the outstanding request, or stays silent (R38, R112). -/
  | transport
  /-- The sensor rewrites registers of its own, all at once (R32, R51, R58; assumption 21). -/
  | sample (cells : List (RegAddr × Byte))
  /-- The sensor is powered on (R33, R123). -/
  | sensorPowerOn
  deriving DecidableEq, Repr

/-- The whole machine. -/
structure State where
  /-- `OWNED` (R16). -/
  owned : Bool
  /-- `DEVADDR` (R17). -/
  devaddr : DevAddr
  /-- `SEQ` (R19). -/
  seq : Phase
  /-- `CMD` (R18). -/
  cmd : CommandWord
  /-- `HI` (R20). -/
  hi : Byte
  /-- `RSP` (R21, R63). -/
  rsp : ResponseWord
  /-- `RSP_VALID` (R21). -/
  rspValid : Bool
  /-- `REQ`, the outstanding transaction (R34). -/
  req : Option BusRequest
  /-- The answered transactions since reset, oldest first (R56); the trace is `State.trace` (assumption 15). -/
  log : List Transaction
  /-- The sensor's `PMODE` (R33). -/
  pmode : PowerMode
  /-- The sensor's `REG` (R32), as far as it is known. -/
  reg : Memory
  /-- Who answers (D22). -/
  transport : Transport
  /-- What the host and the environment do next, oldest first (assumption 1). -/
  moves : List Move
  /-- MODEL'S OWN: the counter that the environment's free values are applied to (assumption 6). -/
  tick : Nat
  deriving DecidableEq, Repr

/-- Why the machine stops with a fault. Each is raised only in states that no run reaches (assumption 14): safe. -/
inductive Fault where
  /-- The sequencer stands in a phase that the command does not have (R19): raised by the meanings. Safe. -/
  | noSuchPhase
  /-- The sequencer waits for an answer and no request is outstanding (R34): raised by `await`. Safe. -/
  | noOutstandingRequest
  /-- The sequencer is busy and `CMD` holds no command (R18): raised by the sequencer's turn. Safe. -/
  | noLatchedCommand
  deriving DecidableEq, Repr

/-- Why the model refuses to go on. -/
inductive Refusal where
  /-- An instruction without a meaning: raised by `exec` alone. No instruction of this model is refused so. Safe. -/
  | notModelled (mnemonic : String)
  /-- The scripted mock bus has no entry left for the request: "a mistake in the test, not behaviour of the hardware" (R57).
  Raised by the transport's turn. Safe. -/
  | scriptExhausted
  /-- An answer that does not fit its request (R40, R57, U14): only a script can give one. Raised by `await`'s callers. Safe. -/
  | answerShape
  /-- A transaction the ideal device has no rule for (R58, U4): the block issues none. Raised by the transport's turn. Safe. -/
  | noSuchTransaction
  deriving DecidableEq, Repr

/-- The outcome of one step of this machine. -/
abbrev Outcome := Host.Outcome State Fault Refusal

/-- What the transport does with the outstanding request at its turn (R38, R112). -/
inductive Turn where
  /-- No answer yet. -/
  | silent (s : State)
  /-- The one answer, and the state after it: the environment's fields and the trace have changed. -/
  | answered (r : BusAnswer) (s : State)
  /-- There is no request to answer. -/
  | noRequest
  /-- A mistake in the reference environment. -/
  | refused (why : Refusal)
  deriving DecidableEq, Repr

/-- The machine right after a reset of the block (R122). `DEVADDR`, `CMD`, `HI` and `RSP` have no reset value in the spec and
hold the values of assumptions 2 and 3; the sensor's mode is unknown (R123). -/
def State.reset : State where
  owned := false
  devaddr := 0x68
  seq := .idle
  cmd := 0
  hi := 0
  rsp := 0
  rspValid := false
  req := none
  log := []
  pmode := .unknown
  reg := []
  transport := .oracle
  moves := []
  tick := 0

end Sys2Proof.Machine
end

