-- ==== Sys2Proof/Machine/Flags.lean ====
section
/-!
DEFINITION. The outcome indicator of a command. RATL has no flags (R23); what it has is the response word: its layout (R63), the
three status codes (R64), the error codes (R66), and what the host reads from it (R15, R21, R65).
-/

namespace Sys2Proof

/-- The code of an error payload, copied unchanged into `ecode` (R66). -/
def BusErr.code : BusErr → Byte
  | .noAcknowledge => 0x01
  | .arbitrationLoss => 0x02
  | .timeout => 0x03
  | .busBusy => 0x04
  | .malformedTransaction => 0x05
  | .transportDefined k => BitVec.ofNat 8 (6 + k.val)

namespace Machine

/-- Status `OK` (R64). -/
def statusOk : Byte := 0x00

/-- Status `BUS_ERROR` (R64). -/
def statusBusError : Byte := 0x01

/-- Status `ILLEGAL` (R64). -/
def statusIllegal : Byte := 0x02

/-- The response word `{status, ecode, value}` (R63). -/
def packResponse (status ecode : Byte) (value : Reading) : ResponseWord := BitVec.cast rfl (status ++ ecode ++ value)

/-- `status = RSP[31:24]` (R63). -/
def statusField (r : ResponseWord) : Byte := r.extractLsb' 24 8

/-- `ecode = RSP[23:16]` (R63). -/
def ecodeField (r : ResponseWord) : Byte := r.extractLsb' 16 8

/-- `value = RSP[15:0]` (R63). -/
def valueField (r : ResponseWord) : Reading := r.extractLsb' 0 16

/-- What the host reads at the response port: no value while `RSP_VALID = 0` (R21, U12). -/
def State.readResponse (s : State) : Option ResponseWord := if s.rspValid then some s.rsp else none

/-- The command port is ready exactly in phase `IDLE` (R59). -/
def State.ready (s : State) : Bool := s.seq == .idle

/-- The value the host may use: none unless `status` is `OK` (R65, D15). -/
def usableValue (r : ResponseWord) : Option Reading := if statusField r = statusOk then some (valueField r) else none

end Machine

end Sys2Proof
end

