-- ==== Sys2Proof/Machine/Operands.lean ====
section
/-!
DEFINITION. Operands: the Register Map's constants (R26 to R29), the device address of `NEW` (R67), zero extension (R65) and the
composition (R86), and the two transactions of a register access (R41).
-/

namespace Sys2Proof.Machine

/-! ## The Register Map (R27, R28) -/

/-- Accelerometer X upper byte. -/
def accelXHi : RegAddr := 0x0B
/-- Accelerometer X lower byte. -/
def accelXLo : RegAddr := 0x0C
/-- Accelerometer Y upper byte. -/
def accelYHi : RegAddr := 0x0D
/-- Accelerometer Y lower byte. -/
def accelYLo : RegAddr := 0x0E
/-- Accelerometer Z upper byte. -/
def accelZHi : RegAddr := 0x0F
/-- Accelerometer Z lower byte. -/
def accelZLo : RegAddr := 0x10
/-- The power-management register. -/
def pwrMgmt : RegAddr := 0x1F
/-- The accelerometer low-noise pattern, an indivisible constant (R28, R30). -/
def pmLowNoise : Byte := 0b00000011

/-! ## Operand assembly and the one computation -/

/-- The device address that `ad` selects: `{0b110100, ad}`, 0x68 or 0x69 (R67, R29). -/
def deviceAddress (ad : AddrSelect) : DevAddr := BitVec.cast rfl (0b110100#6 ++ ad.bit)

/-- `zext_16(d)`: a byte read is zero-extended, never sign-extended (R65, R80). -/
def byteResult (d : Byte) : Reading := d.setWidth 16

/-- `(upper << 8) | lower` in 16 bits, both bytes unsigned (R85, R86). -/
def compose (upper lower : Byte) : Reading := (upper.setWidth 16 <<< 8) ||| lower.setWidth 16

/-! ## Register accesses (R41, R73, R82) -/

/-- `MemWrite(addr, 1, v)`, format W2: `BusWrite(x[DEVADDR], [addr, v])`. -/
def memWrite (dev : DevAddr) (addr : RegAddr) (v : Byte) : BusRequest := .busWrite dev [addr, v]

/-- `MemRead(addr, 1)`, format WR1: `BusWriteRead(x[DEVADDR], [addr], 1)`. -/
def memRead (dev : DevAddr) (addr : RegAddr) : BusRequest := .busWriteRead dev [addr] 1

end Sys2Proof.Machine
end

