-- ==== Sys2Proof/Machine/Ops.lean ====
section
/-!
DEFINITION. The shared operations: the sensor's register space as a canonical list (R32, R37), the sequencer's acceptance and
issue of transactions (R59, R81), the end of a command, which is this hardware's taking of an exception (R65, R101, R104), the
return from one, which there is none of (R111), and the reset of the block (R122, R124).
-/

namespace Sys2Proof.Machine

/-! ## The register space -/

/-- The known contents of a register, or none (assumption 5). -/
def Memory.read : Memory → Nat → Option Byte
  | [], _ => none
  | (k, v) :: m, a => if k = a then some v else Memory.read m a

/-- Set one register: its place in the rising order, or its cell replaced. -/
def Memory.write : Memory → Nat → Byte → Memory
  | [], a, v => [(a, v)]
  | (k, w) :: m, a, v =>
    if a < k then (a, v) :: (k, w) :: m
    else if a = k then (a, v) :: m
    else (k, w) :: Memory.write m a v

/-- Forget one register: its contents are no longer known. -/
def Memory.forget : Memory → Nat → Memory
  | [], _ => []
  | (k, w) :: m, a => if k = a then m else (k, w) :: Memory.forget m a

/-- Set several registers, in order (R58: "a test may change REG"). -/
def Memory.writeAll (m : Memory) : List (RegAddr × Byte) → Memory
  | [] => m
  | (a, v) :: cells => Memory.writeAll (m.write a.toNat v) cells

/-- Every address of the list lies above `lo` and below the end of the space, and the addresses rise strictly. -/
def Memory.risingFrom : Nat → Memory → Bool
  | _, [] => true
  | lo, (k, _) :: m => decide (lo ≤ k) && decide (k < 256) && Memory.risingFrom (k + 1) m

/-- The canonical form: addresses strictly rising, all of them register addresses (R37). No entry can equal what an unlisted
address reads as, since that is no value. -/
def Memory.wf (m : Memory) : Bool := Memory.risingFrom 0 m

/-! ## Accepting a command and issuing its transactions -/

/-- Issue a transaction and wait for its answer in the given phase (R19, R34). -/
def issue (q : BusRequest) (p : Phase) (s : State) : State := { s with req := some q, seq := p }

/-- Latch the command word and clear `RSP_VALID`, as acceptance of an input/output command does (R18, R59;
assumption 20). -/
def latchCommand (w : CommandWord) (s : State) : State := { s with cmd := w, rspValid := false }

/-! ## Ending a command: the one way a command ends, with `OK` or by an exception (R65, R101, R104) -/

/-- Write the response, set `RSP_VALID`, clear the outstanding request, return to `IDLE`. -/
def endCommand (status ecode : Byte) (value : Reading) (s : State) : State :=
  { s with rsp := packResponse status ecode value, rspValid := true, req := none, seq := .idle }

/-- `respond(OK, v)` (R65). -/
def respondOk (v : Reading) (s : State) : State := endCommand statusOk 0 v s

/-- `raise BusError(e)` (R101). There is no handler, so nothing is saved and there is nothing to return from (R111). -/
def raiseBusError (e : BusErr) (s : State) : State := endCommand statusBusError e.code 0 s

/-- `raise Illegal` (R104): at acceptance, so the phase is and stays `IDLE` and no request is outstanding. -/
def raiseIllegal (s : State) : State := endCommand statusIllegal 0 0 s

/-- Acceptance of an input/output command `w` whose first transaction is `q` (R81, R105, R109): refused without a handle,
otherwise latched and issued. -/
def acceptTransfer (w : CommandWord) (q : BusRequest) (s : State) : Outcome :=
  if s.owned then .next (issue q .xfer1 (latchCommand w s)) else .next (raiseIllegal s)

/-! ## Reset (R121 to R124) -/

/-- The reset of the block: its registers as `State.reset` has them, no request, an empty trace. The sensor and the bus are not
touched (R123), unless a transaction was outstanding: then nothing is known of them any more (R124, U17; assumption 13). -/
def resetBlock (s : State) : State :=
  { State.reset with
    moves := s.moves
    tick := s.tick
    pmode := if s.req.isSome then .unknown else s.pmode
    reg := if s.req.isSome then [] else s.reg
    transport := if s.req.isSome then .oracle else s.transport }

/-- The trace (R56): every transaction issued since reset, oldest first, the outstanding one with no answer yet. -/
def State.trace (s : State) : List (BusRequest × Option BusAnswer) :=
  s.log.map (fun t => (t.req, some t.answer)) ++ s.req.toList.map (fun q => (q, none))

end Sys2Proof.Machine
end

