-- ==== Sys2Proof/Machine/Environment.lean ====
section
/-!
DEFINITION. The transport and the sensor (R32, R33, R38 to R40, R55 to R58): what answers a request, what an answered transaction
does to what is known of the sensor, and `await`, the block's waiting for the answer (R19).
-/

namespace Sys2Proof.Machine

/-! ## What an answered transaction does to the sensor -/

/-- `PMODE` after an answered transaction (R33, D23, U16): a successful write of `0x03` to `PWR_MGMT` makes it `LowNoise`; after
any other write, and after a failed one, it is unknown; a read leaves it (assumption 9). -/
def sensorMode (q : BusRequest) (r : BusAnswer) (p : PowerMode) : PowerMode :=
  match q, r with
  | .busWrite _ bytes, .ok _ => if bytes = [pwrMgmt, pmLowNoise] then .lowNoise else .unknown
  | .busWrite _ _, .err _ => .unknown
  | .busWriteRead _ _ _, _ => p

/-- What is still known of the real sensor's registers after an answered transaction: nothing after a successful one (N14, N15,
U16), all but the addressed register after a failed write (R110, U10), everything after a failed read (R110); assumption 10. -/
def sensorKnown (q : BusRequest) (r : BusAnswer) (m : Memory) : Memory :=
  match q, r with
  | _, .ok _ => []
  | .busWrite _ (a :: _), .err _ => m.forget a.toNat
  | .busWrite _ [], .err _ => m
  | .busWriteRead _ _ _, .err _ => m

/-- Record an answered transaction: the trace grows by it (R56) and the sensor's mode follows (R33). -/
def recordAnswer (q : BusRequest) (r : BusAnswer) (s : State) : State :=
  { s with log := s.log ++ [⟨q, r⟩], pmode := sensorMode q r s.pmode }

/-! ## Who answers -/

/-- The unconstrained environment (R55): at each turn silence, any error, or any bytes of the right number. Every choice is a
free value; the shape of an `Ok` answer is the interface's (R40). -/
def oracleAnswer (tick : Nat) (q : BusRequest) : Option BusAnswer :=
  if Config.transportAnswers tick q then
    match Config.transportError tick q with
    | some e => some (.err e)
    | none => some (.ok ((List.range q.readCount).map (Config.transportByte tick q)))
  else none

/-- The ideal register-file device at `dev0` (R58): its answer, its registers and the counter afterwards. A register whose
contents are not known yet gets a free value, which it then keeps (assumption 11). -/
def idealAnswer (dev0 : DevAddr) (q : BusRequest) (m : Memory) (tick : Nat) : Option (BusAnswer × Memory × Nat) :=
  if q.dev = dev0 then
    match q with
    | .busWrite _ [a, v] => some (.ok [], m.write a.toNat v, tick)
    | .busWriteRead _ [a] 1 =>
      match m.read a.toNat with
      | some d => some (.ok [d], m, tick)
      | none => some (.ok [Config.sensorByte tick a], m.write a.toNat (Config.sensorByte tick a), tick + 1)
    | _ => none
  else some (.err .noAcknowledge, m, tick)

/-- The transport's turn on the outstanding request (R38). -/
def transportTurn (s : State) : Turn :=
  match s.req with
  | none => .noRequest
  | some q =>
    match s.transport with
    | .oracle =>
      match oracleAnswer s.tick q with
      | none => .silent { s with tick := s.tick + 1 }
      | some r => .answered r (recordAnswer q r { s with tick := s.tick + 1, reg := sensorKnown q r s.reg })
    | .scripted [] => .refused .scriptExhausted
    | .scripted (r :: rest) =>
      .answered r (recordAnswer q r { s with transport := .scripted rest, reg := sensorKnown q r s.reg })
    | .ideal dev0 =>
      match idealAnswer dev0 q s.reg s.tick with
      | some (r, m, t) => .answered r (recordAnswer q r { s with reg := m, tick := t })
      | none => .refused .noSuchTransaction

/-! ## Waiting -/

/-- `await` (R12, R19): hold until the transport answers; on `Err(e)` the command ends with `raise BusError(e)` (R101), on `Ok`
it goes on with the bytes read. -/
def await (s : State) (onOk : List Byte → State → Outcome) : Outcome :=
  match transportTurn s with
  | .answered (.ok data) t => onOk data t
  | .answered (.err e) t => .next (raiseBusError e t)
  | .silent t => .next t
  | .noRequest => .fault .noOutstandingRequest
  | .refused why => .refused why

end Sys2Proof.Machine
end

