-- ==== Sys2Proof/Machine/RegisterAccess.lean ====
section
/-!
DEFINITION. The Bus Transaction Layer (R79 to R84): `WRITE_REGISTER`, `READ_REGISTER`, and the two shapes of a command with one
transaction that the Driver Handle's commands share.
-/

namespace Sys2Proof.Machine

/-- A register write, whole (R79): acceptance, then the answer of its one transaction. -/
def runWrite (w : CommandWord) (reg : RegAddr) (value : Byte) (s : State) : Outcome :=
  match s.seq with
  | .idle => acceptTransfer w (memWrite s.devaddr reg value) s
  | .xfer1 =>
    await s fun data t =>
      match data with
      | [] => .next (respondOk 0 t)
      | _ :: _ => .refused .answerShape
  | .xfer2 => .fault .noSuchPhase

/-- A register read, whole (R80): acceptance, then the answer, whose one byte is the value. -/
def runRead (w : CommandWord) (reg : RegAddr) (s : State) : Outcome :=
  match s.seq with
  | .idle => acceptTransfer w (memRead s.devaddr reg) s
  | .xfer1 =>
    await s fun data t =>
      match data with
      | [d] => .next (respondOk (byteResult d) t)
      | _ => .refused .answerShape
  | .xfer2 => .fault .noSuchPhase

/-- `WRITE_REGISTER reg, value` (R79). -/
def execWriteRegister (reg : RegAddr) (value : Byte) (s : State) : Outcome :=
  runWrite (encode (.writeRegister reg value)) reg value s

/-- `READ_REGISTER reg` (R80). -/
def execReadRegister (reg : RegAddr) (s : State) : Outcome := runRead (encode (.readRegister reg)) reg s

end Sys2Proof.Machine
end

