-- ==== Sys2Proof/Machine/ValueComposition.lean ====
section
/-!
DEFINITION. Value Composition (R85 to R90): `READ_REGISTER_AS_U16`, and the shape of a composed read that the axis reads share.
-/

namespace Sys2Proof.Machine

/-- A composed read, whole (R85): the upper register first; its byte goes to `HI` and the lower register's read is issued only
after an `Ok` (R87); the second answer ends the command with the composed value. -/
def runComposedRead (w : CommandWord) (upper lower : RegAddr) (s : State) : Outcome :=
  match s.seq with
  | .idle => acceptTransfer w (memRead s.devaddr upper) s
  | .xfer1 =>
    await s fun data t =>
      match data with
      | [u] => .next (issue (memRead t.devaddr lower) .xfer2 { t with hi := u })
      | _ => .refused .answerShape
  | .xfer2 =>
    await s fun data t =>
      match data with
      | [l] => .next (respondOk (compose t.hi l) t)
      | _ => .refused .answerShape

/-- `READ_REGISTER_AS_U16 upper, lower` (R85). -/
def execReadRegisterAsU16 (upper lower : RegAddr) (s : State) : Outcome :=
  runComposedRead (encode (.readRegisterAsU16 upper lower)) upper lower s

end Sys2Proof.Machine
end

