-- ==== Sys2Proof/Machine/DriverHandle.lean ====
section
/-!
DEFINITION. The Driver Handle (R91 to R100): construction, the end of the handle's life, the power-mode write, the axis reads.
-/

namespace Sys2Proof.Machine

/-- `NEW ad` (R91, R105): refused while a handle exists; otherwise the handle owns the bus and holds the selected address. No
transaction, so it is over in `IDLE`. -/
def execNew (ad : AddrSelect) (s : State) : Outcome :=
  match s.seq with
  | .idle =>
    if s.owned then .next (raiseIllegal s)
    else .next (respondOk 0 { s with owned := true, devaddr := deviceAddress ad })
  | .xfer1 => .fault .noSuchPhase
  | .xfer2 => .fault .noSuchPhase

/-- `DROP` (R92, R105): refused without a handle; otherwise the bus is released. `DEVADDR` keeps its bits. -/
def execDrop (s : State) : Outcome :=
  match s.seq with
  | .idle => if s.owned then .next (respondOk 0 { s with owned := false }) else .next (raiseIllegal s)
  | .xfer1 => .fault .noSuchPhase
  | .xfer2 => .fault .noSuchPhase

/-- `SET_ACCEL_LOW_NOISE_MODE` (R93): the write of `0x03` to register `0x1F`, and nothing else (R74). -/
def execSetAccelLowNoiseMode (s : State) : Outcome :=
  runWrite (encode .setAccelLowNoiseMode) pwrMgmt pmLowNoise s

/-- `READ_ACCEL_X` (R94): the composed read of `0x0B`, `0x0C`. -/
def execReadAccelX (s : State) : Outcome := runComposedRead (encode .readAccelX) accelXHi accelXLo s

/-- `READ_ACCEL_Y` (R95): the composed read of `0x0D`, `0x0E`. -/
def execReadAccelY (s : State) : Outcome := runComposedRead (encode .readAccelY) accelYHi accelYLo s

/-- `READ_ACCEL_Z` (R96): the composed read of `0x0F`, `0x10`. -/
def execReadAccelZ (s : State) : Outcome := runComposedRead (encode .readAccelZ) accelZHi accelZLo s

end Sys2Proof.Machine
end

