-- ==== Sys2Proof/Machine/Dispatch.lean ====
section
/-!
DEFINITION. The dispatch: one arm per command. A meaning follows its command from the phase the sequencer stands in.
-/

namespace Sys2Proof.Machine

def exec (i : Instr) (s : State) : Host.Outcome State Fault Refusal :=
  match i with
  | .new ad => Sys2Proof.Machine.execNew ad s
  | .drop => Sys2Proof.Machine.execDrop s
  | .writeRegister reg value => Sys2Proof.Machine.execWriteRegister reg value s
  | .readRegister reg => Sys2Proof.Machine.execReadRegister reg s
  | .readRegisterAsU16 upper lower => Sys2Proof.Machine.execReadRegisterAsU16 upper lower s
  | .setAccelLowNoiseMode => Sys2Proof.Machine.execSetAccelLowNoiseMode s
  | .readAccelX => Sys2Proof.Machine.execReadAccelX s
  | .readAccelY => Sys2Proof.Machine.execReadAccelY s
  | .readAccelZ => Sys2Proof.Machine.execReadAccelZ s

end Sys2Proof.Machine
end

