-- ==== Sys2Proof/Machine/Agents.lean ====
section
/-!
DEFINITION. The agents' moves (R9): the host presents a word or resets the block, the transport takes its turn, the sensor samples
or is powered on; and the block's reaction, which is part of the step of the event that causes it (assumption 7).
-/

namespace Sys2Proof.Machine

/-- Acceptance of a word at the ready port (R59, R109): an illegal word is answered `ILLEGAL` (R70, R104), any other is its
command's to accept or refuse. -/
def acceptWord (w : CommandWord) (s : State) : Outcome :=
  match decode w with
  | .ok i => exec i s
  | .error _ => .next (raiseIllegal s)

/-- The turn of the waiting sequencer: the command latched in `CMD` goes on (R18, R19). An idle block does nothing (R107). -/
def sequencerTurn (s : State) : Outcome :=
  match s.seq with
  | .idle => .next s
  | .xfer1 =>
    match decode s.cmd with
    | .ok i => exec i s
    | .error _ => .fault .noLatchedCommand
  | .xfer2 =>
    match decode s.cmd with
    | .ok i => exec i s
    | .error _ => .fault .noLatchedCommand

/-- The next move. A word is taken from the host only when the port is ready; until then the host holds it and the block goes
on (R60). With no move listed the host has nothing to ask and the block goes on with what it has (assumption 1). -/
def nextMove (s : State) : Outcome :=
  match s.moves with
  | [] => sequencerTurn s
  | .present w :: rest => if s.ready then acceptWord w { s with moves := rest } else sequencerTurn s
  | .hostReset :: rest => .next (resetBlock { s with moves := rest })
  | .transport :: rest => sequencerTurn { s with moves := rest }
  | .sample cells :: rest => .next { s with moves := rest, reg := s.reg.writeAll cells }
  | .sensorPowerOn :: rest => .next { s with moves := rest, pmode := .idle, reg := [] }

/-- A state whose very next step accepts the word: the host presents it and the port is ready (assumption 18). -/
def presentWord (w : CommandWord) (s : State) : State :=
  { s with moves := .present w :: s.moves, seq := .idle, req := none }

end Sys2Proof.Machine
end

