-- ==== Sys2Proof/Machine/Step.lean ====
section
/-!
DEFINITION. One step of the machine: the next move of an agent, with the block's reaction (R9, R19, R59).
-/

namespace Sys2Proof.Machine

/-- One step. -/
def step (s : State) : Host.Outcome State Fault Refusal := nextMove s

/-- The state with an instruction placed where the block takes its next one from: the command port. The word has the bits the
opcode table numbers, `nbits` of them; a command has 24. -/
def State.withFetchWord (s : State) (nbits w : Nat) : State := presentWord (BitVec.ofNat 24 (w % 2 ^ nbits)) s

end Sys2Proof.Machine
end

