-- ==== Sys2Proof/Machine/Assembler.lean ====
section
/-!
DEFINITION. The textual form of a command (R75): one command a line, the mnemonic in capitals, operands separated by commas, `;`
starts a comment. A printer and a reader of one line; neither is part of the step. Work is on lists of characters. Blanks and
letter case: assumption 19.
-/

namespace Sys2Proof.Machine

/-- What one line of text is (R75). -/
inductive Line where
  /-- Nothing but blanks and a comment. -/
  | blank
  | command (i : Instr)
  | malformed
  deriving DecidableEq, Repr

/-- The value of a digit of base at most 16, either case of the letters. -/
def digitValue (c : Char) : Option Nat :=
  if '0' ≤ c ∧ c ≤ '9' then some (c.toNat - '0'.toNat)
  else if 'a' ≤ c ∧ c ≤ 'f' then some (c.toNat - 'a'.toNat + 10)
  else if 'A' ≤ c ∧ c ≤ 'F' then some (c.toNat - 'A'.toNat + 10)
  else none

/-- Digits read on from `acc`; an underscore is passed over where the notation allows it (R11, R75: in binary). -/
def readDigits (base : Nat) (underscores : Bool) : Nat → List Char → Option Nat
  | acc, [] => some acc
  | acc, c :: cs =>
    if c = '_' ∧ underscores then readDigits base underscores acc cs
    else
      match digitValue c with
      | some d => if d < base then readDigits base underscores (acc * base + d) cs else none
      | none => none

/-- A literal: `0x` hexadecimal, `0b` binary, otherwise decimal. It begins with a digit of its base. -/
def readLiteral (cs : List Char) : Option Nat :=
  match cs with
  | '0' :: 'x' :: c :: rest => if c = '_' then none else readDigits 16 false 0 (c :: rest)
  | '0' :: 'b' :: c :: rest => if c = '_' then none else readDigits 2 true 0 (c :: rest)
  | c :: rest => readDigits 10 false 0 (c :: rest)
  | [] => none

/-- The Register Map's names (R27, R28). The three power patterns without a value stand for their parameters. -/
def namedByte (cs : List Char) : Option Byte :=
  if cs = "ACCEL_X_HI".toList then some accelXHi
  else if cs = "ACCEL_X_LO".toList then some accelXLo
  else if cs = "ACCEL_Y_HI".toList then some accelYHi
  else if cs = "ACCEL_Y_LO".toList then some accelYLo
  else if cs = "ACCEL_Z_HI".toList then some accelZHi
  else if cs = "ACCEL_Z_LO".toList then some accelZLo
  else if cs = "PWR_MGMT".toList then some pwrMgmt
  else if cs = "PM_LOW_NOISE".toList then some pmLowNoise
  else if cs = "PM_STANDBY".toList then some Config.pmStandby
  else if cs = "PM_LOW_POWER".toList then some Config.pmLowPower
  else if cs = "PM_OFF".toList then some Config.pmOff
  else none

/-- An operand (R75): a Register Map name, or a literal in the range 0 to 255. -/
def readOperand (cs : List Char) : Option Byte :=
  match namedByte cs with
  | some v => some v
  | none =>
    match readLiteral cs with
    | some n => if n < 256 then some (BitVec.ofNat 8 n) else none
    | none => none

/-- The operand of `NEW` (R75). -/
def readAddrSelect (cs : List Char) : Option AddrSelect :=
  if cs = "AD0".toList then some .ad0 else if cs = "AD1".toList then some .ad1 else none

/-- A blank: a space, a tab, or the end of the line. -/
def isBlank (c : Char) : Bool := c == ' ' || c == '\t' || c == '\r' || c == '\n'

/-- Text without the blanks at both ends. -/
def trimBlanks (cs : List Char) : List Char := ((cs.dropWhile isBlank).reverse.dropWhile isBlank).reverse

/-- Text split at each comma. -/
def splitCommas : List Char → List (List Char)
  | [] => [[]]
  | c :: cs =>
    if c = ',' then [] :: splitCommas cs
    else
      match splitCommas cs with
      | [] => [[c]]
      | f :: fs => (c :: f) :: fs

/-- The operand fields of a line after its mnemonic: none, or those between the commas. -/
def operandFields (cs : List Char) : List (List Char) :=
  if trimBlanks cs = [] then [] else (splitCommas cs).map trimBlanks

/-- A mnemonic with its operand fields (R75's table). -/
def readCommand (mnemonic : List Char) (fields : List (List Char)) : Option Instr :=
  if mnemonic = "NEW".toList then
    match fields with
    | [f] => (readAddrSelect f).map .new
    | _ => none
  else if mnemonic = "DROP".toList then if fields = [] then some .drop else none
  else if mnemonic = "WRITE_REGISTER".toList then
    match fields with
    | [f, g] => (readOperand f).bind fun r => (readOperand g).map fun v => .writeRegister r v
    | _ => none
  else if mnemonic = "READ_REGISTER".toList then
    match fields with
    | [f] => (readOperand f).map .readRegister
    | _ => none
  else if mnemonic = "READ_REGISTER_AS_U16".toList then
    match fields with
    | [f, g] => (readOperand f).bind fun u => (readOperand g).map fun l => .readRegisterAsU16 u l
    | _ => none
  else if mnemonic = "SET_ACCEL_LOW_NOISE_MODE".toList then if fields = [] then some .setAccelLowNoiseMode else none
  else if mnemonic = "READ_ACCEL_X".toList then if fields = [] then some .readAccelX else none
  else if mnemonic = "READ_ACCEL_Y".toList then if fields = [] then some .readAccelY else none
  else if mnemonic = "READ_ACCEL_Z".toList then if fields = [] then some .readAccelZ else none
  else none

/-- Read one line (R75). -/
def readLine (line : List Char) : Line :=
  let text := trimBlanks (line.takeWhile (· != ';'))
  if text = [] then .blank
  else
    match readCommand (text.takeWhile (fun c => !isBlank c)) (operandFields (text.dropWhile (fun c => !isBlank c))) with
    | some i => .command i
    | none => .malformed

/-- One hexadecimal digit. -/
def hexDigit (n : Nat) : Char := if n < 10 then Char.ofNat (48 + n) else Char.ofNat (55 + n)

/-- A byte as a literal, `0x` and two digits. -/
def printByte (b : Byte) : List Char := ['0', 'x', hexDigit (b.toNat / 16), hexDigit (b.toNat % 16)]

/-- The textual form of a command (R75). -/
def printCommand (i : Instr) : List Char :=
  i.mnemonic.toList ++
    match i with
    | .new .ad0 => " AD0".toList
    | .new .ad1 => " AD1".toList
    | .drop => []
    | .writeRegister reg value => ' ' :: printByte reg ++ ',' :: ' ' :: printByte value
    | .readRegister reg => ' ' :: printByte reg
    | .readRegisterAsU16 upper lower => ' ' :: printByte upper ++ ',' :: ' ' :: printByte lower
    | .setAccelLowNoiseMode => []
    | .readAccelX => []
    | .readAccelY => []
    | .readAccelZ => []

end Sys2Proof.Machine
end

