-- ==== Sys2Proof/Safety.lean ====
section
/-!
DEFINITION. The terms that claims use: which transactions a command issues (R3, R73), the invariants of the block (R17, R19, R34,
R64, R65, R73), the block's own part of a state (R98), the exchange of the two device addresses (R100), and the end of a run (R134).
-/

namespace Sys2Proof

/-! ## The transactions of a command -/

/-- Every transaction a command issues when each is answered `Ok`, in order, addressed to `dev` (R3, R46, R67, R73). -/
def Instr.transactions (dev : DevAddr) : Instr → List BusRequest
  | .new _ => []
  | .drop => []
  | .writeRegister reg value => [.busWrite dev [reg, value]]
  | .readRegister reg => [.busWriteRead dev [reg] 1]
  | .readRegisterAsU16 upper lower => [.busWriteRead dev [upper] 1, .busWriteRead dev [lower] 1]
  | .setAccelLowNoiseMode => [.busWrite dev [0x1F, 0x03]]
  | .readAccelX => [.busWriteRead dev [0x0B] 1, .busWriteRead dev [0x0C] 1]
  | .readAccelY => [.busWriteRead dev [0x0D] 1, .busWriteRead dev [0x0E] 1]
  | .readAccelZ => [.busWriteRead dev [0x0F] 1, .busWriteRead dev [0x10] 1]

/-! ## The other device address (R100) -/

/-- `0x68` for `0x69` and back. -/
def DevAddr.swap (d : DevAddr) : DevAddr := if d = 0x68#7 then 0x69#7 else if d = 0x69#7 then 0x68#7 else d

/-- A request with the other device address, and everything else as it was. -/
def BusRequest.swap : BusRequest → BusRequest
  | .busWrite dev bytes => .busWrite (DevAddr.swap dev) bytes
  | .busWriteRead dev wbytes n => .busWriteRead (DevAddr.swap dev) wbytes n

/-- `NEW AD0` for `NEW AD1` and back; every other word as it was. -/
def swapWord (w : CommandWord) : CommandWord :=
  if w = 0x010000#24 then 0x010001#24 else if w = 0x010001#24 then 0x010000#24 else w

end Sys2Proof

namespace Sys2Proof.Machine

/-! ## The shapes of a command -/

/-- How many transactions of its command the sequencer has already had answered in a phase (R19). -/
def Phase.index : Phase → Nat
  | .idle => 0
  | .xfer1 => 0
  | .xfer2 => 1

/-- What an answered request leaves: the answer stands in the trace after everything before it, the block's registers and the
moves to come are as they were, and only the environment's fields may differ (R55, R56). -/
def AnswerRecorded (s : State) (r : BusAnswer) (t : State) : Prop :=
  ∃ q, s.req = some q ∧
    t = { s with
      log := s.log ++ [⟨q, r⟩]
      pmode := t.pmode
      reg := t.reg
      transport := t.transport
      tick := t.tick }

/-- The command with word `w` runs as R79 says a register write does: refused without a handle; otherwise latched with its one
transaction `[reg, value]` issued; then ended by the answer, with the error's code or with an empty success. Each next state is
the state before, or the state after the answer, with the named fields written and every other field as it was. -/
def ActsAsWrite (i : Instr) (w : CommandWord) (reg : RegAddr) (value : Byte) : Prop :=
  ∀ s : State,
    (s.seq = .idle → s.req = none → s.owned = false → exec i s = .next { s with rsp := 0x02000000, rspValid := true }) ∧
    (s.seq = .idle → s.owned = true →
      exec i s = .next { s with cmd := w, rspValid := false, req := some (.busWrite s.devaddr [reg, value]), seq := .xfer1 }) ∧
    (∀ e t, s.seq = .xfer1 → transportTurn s = .answered (.err e) t →
      AnswerRecorded s (.err e) t ∧
      exec i s = .next { t with rsp := 0x01#8 ++ e.code ++ 0x0000#16, rspValid := true, req := none, seq := .idle }) ∧
    (∀ t, s.seq = .xfer1 → transportTurn s = .answered (.ok []) t →
      AnswerRecorded s (.ok []) t ∧
      exec i s = .next { t with rsp := 0x00000000, rspValid := true, req := none, seq := .idle })

/-- The command with word `w` runs as R80 says a register read does: one transaction that writes `[reg]` and reads one byte `d`;
the value is `d` with eight zero bits above it. -/
def ActsAsRead (i : Instr) (w : CommandWord) (reg : RegAddr) : Prop :=
  ∀ s : State,
    (s.seq = .idle → s.req = none → s.owned = false → exec i s = .next { s with rsp := 0x02000000, rspValid := true }) ∧
    (s.seq = .idle → s.owned = true →
      exec i s = .next { s with cmd := w, rspValid := false, req := some (.busWriteRead s.devaddr [reg] 1), seq := .xfer1 }) ∧
    (∀ e t, s.seq = .xfer1 → transportTurn s = .answered (.err e) t →
      AnswerRecorded s (.err e) t ∧
      exec i s = .next { t with rsp := 0x01#8 ++ e.code ++ 0x0000#16, rspValid := true, req := none, seq := .idle }) ∧
    (∀ d t, s.seq = .xfer1 → transportTurn s = .answered (.ok [d]) t →
      AnswerRecorded s (.ok [d]) t ∧
      exec i s = .next { t with rsp := 0x000000#24 ++ d, rspValid := true, req := none, seq := .idle })

/-- The command with word `w` runs as R85 says a composed read does: the upper register is read first; on an error the command
ends and the lower read is not issued; on a byte `u` it goes to `HI` and the lower read is issued; its answer ends the command,
with the error's code or with `{HI, l}`. -/
def ActsAsComposedRead (i : Instr) (w : CommandWord) (upper lower : RegAddr) : Prop :=
  ∀ s : State,
    (s.seq = .idle → s.req = none → s.owned = false → exec i s = .next { s with rsp := 0x02000000, rspValid := true }) ∧
    (s.seq = .idle → s.owned = true →
      exec i s = .next { s with cmd := w, rspValid := false, req := some (.busWriteRead s.devaddr [upper] 1), seq := .xfer1 }) ∧
    (∀ e t, s.seq = .xfer1 → transportTurn s = .answered (.err e) t →
      AnswerRecorded s (.err e) t ∧
      exec i s = .next { t with rsp := 0x01#8 ++ e.code ++ 0x0000#16, rspValid := true, req := none, seq := .idle }) ∧
    (∀ u t, s.seq = .xfer1 → transportTurn s = .answered (.ok [u]) t →
      AnswerRecorded s (.ok [u]) t ∧
      exec i s = .next { t with hi := u, req := some (.busWriteRead s.devaddr [lower] 1), seq := .xfer2 }) ∧
    (∀ e t, s.seq = .xfer2 → transportTurn s = .answered (.err e) t →
      AnswerRecorded s (.err e) t ∧
      exec i s = .next { t with rsp := 0x01#8 ++ e.code ++ 0x0000#16, rspValid := true, req := none, seq := .idle }) ∧
    (∀ l t, s.seq = .xfer2 → transportTurn s = .answered (.ok [l]) t →
      AnswerRecorded s (.ok [l]) t ∧
      exec i s = .next { t with rsp := 0x0000#16 ++ s.hi ++ l, rspValid := true, req := none, seq := .idle })

/-- The word is illegal by its bits: at the ready port it is answered `ILLEGAL` in the step that takes it, handle or none, and
everything else is as it was (R70, R104). -/
def RefusedByEncoding (w : CommandWord) : Prop :=
  ∀ (s : State) (rest : List Move), s.seq = .idle → s.req = none → s.moves = .present w :: rest →
    step s = .next { s with moves := rest, rsp := 0x02000000, rspValid := true }

/-! ## Invariants -/

/-- The sequencer is in step with its command (R18, R19, R21, R34): in `IDLE` nothing is outstanding; while busy there is a
handle, no valid response, and the outstanding request is the first (`XFER1`) or second (`XFER2`) transaction of the command
latched in `CMD`, addressed to `DEVADDR`. -/
def State.sequencerOk (s : State) : Bool :=
  match s.seq with
  | .idle => s.req.isNone
  | .xfer1 =>
    s.owned && !s.rspValid &&
      match decode s.cmd with
      | .ok i => s.req.isSome && s.req == (i.transactions s.devaddr)[0]?
      | .error _ => false
  | .xfer2 =>
    s.owned && !s.rspValid &&
      match decode s.cmd with
      | .ok i => s.req.isSome && s.req == (i.transactions s.devaddr)[1]?
      | .error _ => false

/-- Between the two transactions of a composed read the last answer in the trace is the upper byte's, and `HI` holds that byte
(R20, R87). -/
def State.upperOk (s : State) : Bool :=
  match s.seq with
  | .idle => true
  | .xfer1 => true
  | .xfer2 =>
    match decode s.cmd with
    | .ok i =>
      match (i.transactions s.devaddr)[0]? with
      | some q => s.log.getLast? == some ⟨q, .ok [s.hi]⟩
      | none => false
    | .error _ => false

/-- A handle holds a legal device address (R17). -/
def State.handleOk (s : State) : Bool := !s.owned || DevAddr.legal s.devaddr

/-- A response word of one of the three kinds (R64, R65, R66): `OK` with no error code, `BUS_ERROR` with an error code and no
value, `ILLEGAL` with neither. -/
def responseLegal (r : ResponseWord) : Bool :=
  (statusField r == 0x00#8 && ecodeField r == 0x00#8) ||
  (statusField r == 0x01#8 && ecodeField r != 0x00#8 && valueField r == 0x0000#16) ||
  (statusField r == 0x02#8 && ecodeField r == 0x00#8 && valueField r == 0x0000#16)

/-- A valid response is one the block can give (R64). -/
def State.responseOk (s : State) : Bool := !s.rspValid || responseLegal s.rsp

/-- Every answered transaction has one of the two formats and an answer that fits it (R40, R73). -/
def State.logOk (s : State) : Bool := s.log.all fun t => t.req.wellFormed && t.answer.fits t.req

/-- An idle block without a valid response has had no command since its reset (R21, R59, R134): no handle, an empty trace. -/
def State.freshOk (s : State) : Bool := s.seq != .idle || s.rspValid || (!s.owned && s.log.isEmpty)

/-- The invariant of the machine. -/
structure State.Inv (s : State) : Prop where
  sequencer : s.sequencerOk = true
  handle : s.handleOk = true
  response : s.responseOk = true
  log : s.logOk = true
  fresh : s.freshOk = true
  upper : s.upperOk = true
  memory : s.reg.wf = true

/-! ## Runs -/

/-- `n` steps, ending at the first fault or refusal. -/
def run : Nat → State → Outcome
  | 0, s => .next s
  | n + 1, s =>
    match step s with
    | .next t => run n t
    | .fault r => .fault r
    | .refused r => .refused r

/-! ## Views of a state -/

/-- What the host can observe of the block (R15): the response, when there is one, and whether the port is ready. -/
def State.hostView (s : State) : Option ResponseWord × Bool := (s.readResponse, s.ready)

/-- The registers of the block with its request and its trace: what R98 says the sensor's mode never reaches. -/
def State.blockView (s : State) :
    Bool × DevAddr × Phase × CommandWord × Byte × ResponseWord × Bool × Option BusRequest × List Transaction :=
  (s.owned, s.devaddr, s.seq, s.cmd, s.hi, s.rsp, s.rspValid, s.req, s.log)

/-- Apply a function to the state of a `next` outcome. -/
def mapNext {α : Type} (f : State → α) : Outcome → Host.Outcome α Fault Refusal
  | .next s => .next (f s)
  | .fault r => .fault r
  | .refused r => .refused r

/-! ## Exchanging the two device addresses (R100) -/

/-- The same move with the other address in a `NEW` word. -/
def Move.swap : Move → Move
  | .present w => .present (swapWord w)
  | .hostReset => .hostReset
  | .transport => .transport
  | .sample cells => .sample cells
  | .sensorPowerOn => .sensorPowerOn

/-- The same environment with the ideal device at the other address. -/
def Transport.swap : Transport → Transport
  | .oracle => .oracle
  | .scripted script => .scripted script
  | .ideal dev0 => .ideal (DevAddr.swap dev0)

/-- The same machine with the other device address: in `DEVADDR`, in every request of its trace, in every `NEW` the host has
yet to present, and in the address of an ideal device. -/
def State.swapAddress (s : State) : State :=
  { s with
    devaddr := DevAddr.swap s.devaddr
    req := s.req.map BusRequest.swap
    log := s.log.map fun t => ⟨t.req.swap, t.answer⟩
    transport := s.transport.swap
    moves := s.moves.map Move.swap }

/-! ## The end of a run (R134) -/

/-- Whether a move is the host's presenting of a word. -/
def Move.isPresent : Move → Bool
  | .present _ => true
  | .hostReset => false
  | .transport => false
  | .sample _ => false
  | .sensorPowerOn => false

/-- A run is over: the host has no further command and no transaction is in flight. The response of the last command is then
valid, or no command was ever issued (`State.freshOk`). -/
def State.runOver (s : State) : Bool := s.ready && s.moves.all fun m => !m.isPresent

end Sys2Proof.Machine
end

