-- ==== Sys2Proof/Certificates/Slice0/Obligations.lean ====
section
/-!
DEFINITION. The statements for the provers. OBLIGATIONS.json lists them with the rules they formalise.
-/

open Sys2Proof Sys2Proof.Machine

/-! ## The encodings (30_encoding.md) -/

/-- R62, R68, R69: decoding the word of a command gives the command back, with every operand at every value. -/
def Obligations.DecodeOfEncodeIsTheCommand : Prop :=
  ∀ i : Instr, i.wellFormed = true → decode (encode i) = .ok i

/-- R62, R70: a word that decodes to a command is that command's word, so every other word is illegal. -/
def Obligations.EncodeOfDecodeIsTheWord : Prop :=
  ∀ (w : CommandWord) (i : Instr), decode w = .ok i → encode i = w

/-- R68: one word of each command, and two of `NEW`, written out from the bit patterns of the table. -/
def Obligations.WordsWrittenOutDecode : Prop :=
  decode 0b000000010000000000000000#24 = .ok (.new .ad0) ∧
  decode 0b000000010000000000000001#24 = .ok (.new .ad1) ∧
  decode 0b000000100000000000000000#24 = .ok .drop ∧
  decode 0b000100000001111100000011#24 = .ok (.writeRegister 0x1F 0x03) ∧
  decode 0b000100010000101100000000#24 = .ok (.readRegister 0x0B) ∧
  decode 0b000100100000101100001100#24 = .ok (.readRegisterAsU16 0x0B 0x0C) ∧
  decode 0b001000000000000000000000#24 = .ok .setAccelLowNoiseMode ∧
  decode 0b001000010000000000000000#24 = .ok .readAccelX ∧
  decode 0b001000100000000000000000#24 = .ok .readAccelY ∧
  decode 0b001000110000000000000000#24 = .ok .readAccelZ

/-- R68, R69: on every word the decoder names the command of the table row whose mask and match accept the word, and no
command when no row does. -/
def Obligations.DecodeFollowsTheOpcodeTable : Prop :=
  ∀ w : CommandWord,
    (decode w).toOption.map Instr.mnemonic = (opcodeTable.find? fun r => r.accepts w).map fun r => r.mnemonic

/-- R69: no two rows of the table accept the same word. -/
def Obligations.NoTwoRowsAcceptOneWord : Prop :=
  ∀ (w : CommandWord) (r₁ r₂ : OpcodeRow), r₁ ∈ opcodeTable → r₂ ∈ opcodeTable → r₁.accepts w = true →
    r₂.accepts w = true → r₁ = r₂

/-- R70: the illegal words are those with a reserved opcode and those with a must-be-zero field that is not zero. -/
def Obligations.IllegalWordsAreReservedOrNotZero : Prop :=
  ∀ w : CommandWord,
    (∃ e, decode w = .error e) ↔
      opField w ∉ [0x01#8, 0x02#8, 0x10#8, 0x11#8, 0x12#8, 0x20#8, 0x21#8, 0x22#8, 0x23#8] ∨
      (opField w = 0x01#8 ∧ (aField w ≠ 0 ∨ w.extractLsb' 1 7 ≠ 0)) ∨
      (opField w = 0x11#8 ∧ bField w ≠ 0) ∨
      (opField w ∈ [0x02#8, 0x20#8, 0x21#8, 0x22#8, 0x23#8] ∧ (aField w ≠ 0 ∨ bField w ≠ 0))

/-- R75: reading the printed text of a command gives the command back. -/
def Obligations.ReadingThePrintedTextGivesTheCommand : Prop :=
  ∀ i : Instr, readLine (printCommand i) = .command i

/-! ## The commands (40_register_access.md, 41_value_composition.md, 42_driver_handle.md) -/

/-- R79: `WRITE_REGISTER reg, value` has the word `{0x10, reg, value}` and runs as one write transaction of `[reg, value]`. -/
def Obligations.WriteRegisterIsOneWrite : Prop :=
  ∀ (reg : RegAddr) (value : Byte),
    decode (0x10#8 ++ reg ++ value : BitVec 24) = .ok (.writeRegister reg value) ∧
    ActsAsWrite (.writeRegister reg value) (0x10#8 ++ reg ++ value) reg value

/-- R80: `READ_REGISTER reg` has the word `{0x11, reg, 0}` and runs as one transaction that writes `[reg]` and reads one byte; the
low byte must be zero. -/
def Obligations.ReadRegisterIsOneRead : Prop :=
  (∀ reg : RegAddr,
    decode (0x11#8 ++ reg ++ 0x00#8 : BitVec 24) = .ok (.readRegister reg) ∧
    ActsAsRead (.readRegister reg) (0x11#8 ++ reg ++ 0x00#8) reg) ∧
  ∀ reg b : Byte, b ≠ 0x00 → RefusedByEncoding (0x11#8 ++ reg ++ b)

/-- R85: `READ_REGISTER_AS_U16 upper, lower` has the word `{0x12, upper, lower}` and runs as two reads, composed. -/
def Obligations.ReadRegisterAsU16IsTwoReadsComposed : Prop :=
  ∀ upper lower : RegAddr,
    decode (0x12#8 ++ upper ++ lower : BitVec 24) = .ok (.readRegisterAsU16 upper lower) ∧
    ActsAsComposedRead (.readRegisterAsU16 upper lower) (0x12#8 ++ upper ++ lower) upper lower

/-- R91: `NEW ad` takes the bus and stores the selected address, with no transaction; with a handle it is refused; the other
fifteen operand bits must be zero. -/
def Obligations.NewConstructsTheHandle : Prop :=
  decode 0x010000#24 = .ok (.new .ad0) ∧ decode 0x010001#24 = .ok (.new .ad1) ∧
  (∀ (b : BitVec 15) (ad : BitVec 1), b ≠ 0 → RefusedByEncoding (0x01#8 ++ b ++ ad)) ∧
  ∀ (ad : AddrSelect) (s : State), s.seq = .idle → s.req = none →
    (s.owned = false →
      exec (.new ad) s = .next { s with
        owned := true
        devaddr := match ad with
          | .ad0 => 0x68
          | .ad1 => 0x69
        rsp := 0x00000000
        rspValid := true }) ∧
    (s.owned = true → exec (.new ad) s = .next { s with rsp := 0x02000000, rspValid := true })

/-- R92: `DROP` releases the bus, with no transaction; without a handle it is refused; its operand bits must be zero. -/
def Obligations.DropReleasesTheHandle : Prop :=
  decode 0x020000#24 = .ok .drop ∧ (∀ b : BitVec 16, b ≠ 0 → RefusedByEncoding (0x02#8 ++ b)) ∧
  ∀ s : State, s.seq = .idle → s.req = none →
    (s.owned = true → exec .drop s = .next { s with owned := false, rsp := 0x00000000, rspValid := true }) ∧
    (s.owned = false → exec .drop s = .next { s with rsp := 0x02000000, rspValid := true })

/-- R93, R74, R33: `SET_ACCEL_LOW_NOISE_MODE` is the one write of `0x03` to register `0x1F`; its operand bits must be zero. Answered
`Ok`, that write takes the sensor into `LowNoise`; answered `Err`, it leaves the mode unknown. -/
def Obligations.SetAccelLowNoiseModeWritesThePattern : Prop :=
  decode 0x200000#24 = .ok .setAccelLowNoiseMode ∧ (∀ b : BitVec 16, b ≠ 0 → RefusedByEncoding (0x20#8 ++ b)) ∧
  ActsAsWrite .setAccelLowNoiseMode 0x200000 0x1F 0x03 ∧
  ∀ s t : State, s.req = some (.busWrite s.devaddr [0x1F, 0x03]) →
    (transportTurn s = .answered (.ok []) t → t.pmode = .lowNoise) ∧
    (∀ e, transportTurn s = .answered (.err e) t → t.pmode = .unknown)

/-- R94: `READ_ACCEL_X` is the composed read of `0x0B`, `0x0C`; its operand bits must be zero. -/
def Obligations.ReadAccelXReadsItsPair : Prop :=
  decode 0x210000#24 = .ok .readAccelX ∧ (∀ b : BitVec 16, b ≠ 0 → RefusedByEncoding (0x21#8 ++ b)) ∧
  ActsAsComposedRead .readAccelX 0x210000 0x0B 0x0C

/-- R95: `READ_ACCEL_Y` is the composed read of `0x0D`, `0x0E`; its operand bits must be zero. -/
def Obligations.ReadAccelYReadsItsPair : Prop :=
  decode 0x220000#24 = .ok .readAccelY ∧ (∀ b : BitVec 16, b ≠ 0 → RefusedByEncoding (0x22#8 ++ b)) ∧
  ActsAsComposedRead .readAccelY 0x220000 0x0D 0x0E

/-- R96: `READ_ACCEL_Z` is the composed read of `0x0F`, `0x10`; its operand bits must be zero. -/
def Obligations.ReadAccelZReadsItsPair : Prop :=
  decode 0x230000#24 = .ok .readAccelZ ∧ (∀ b : BitVec 16, b ≠ 0 → RefusedByEncoding (0x23#8 ++ b)) ∧
  ActsAsComposedRead .readAccelZ 0x230000 0x0F 0x10

/-- R77: the four fixed commands behave as the generic ones they are instances of, in every state, `CMD` aside. -/
def Obligations.FixedCommandsAreInstancesOfGenericOnes : Prop :=
  ∀ s : State,
    (mapNext (fun t => { t with cmd := 0 }) (exec .setAccelLowNoiseMode s) =
      mapNext (fun t => { t with cmd := 0 }) (exec (.writeRegister 0x1F 0x03) s)) ∧
    (mapNext (fun t => { t with cmd := 0 }) (exec .readAccelX s) =
      mapNext (fun t => { t with cmd := 0 }) (exec (.readRegisterAsU16 0x0B 0x0C) s)) ∧
    (mapNext (fun t => { t with cmd := 0 }) (exec .readAccelY s) =
      mapNext (fun t => { t with cmd := 0 }) (exec (.readRegisterAsU16 0x0D 0x0E) s)) ∧
    (mapNext (fun t => { t with cmd := 0 }) (exec .readAccelZ s) =
      mapNext (fun t => { t with cmd := 0 }) (exec (.readRegisterAsU16 0x0F 0x10) s))

/-- R86: the composition is `256 * u + l`, with `u` in the high byte and `l` in the low one; it is one-to-one. -/
def Obligations.CompositionIsExact : Prop :=
  ∀ u l : Byte,
    (compose u l).toNat = 256 * u.toNat + l.toNat ∧
    (compose u l).extractLsb' 8 8 = u ∧ (compose u l).extractLsb' 0 8 = l ∧
    ∀ u' l' : Byte, compose u l = compose u' l' → u = u' ∧ l = l'

/-- R16, R17, R18, R20, R22: what each command may write of the block's registers when it answers a next state; every other
register is as it was, and what the host and the sensor do next is never the command's to change. -/
def Obligations.CommandsWriteOnlyTheirRegisters : Prop :=
  ∀ (i : Instr) (s t : State), exec i s = .next t →
    ((∀ ad, i ≠ .new ad) → t.devaddr = s.devaddr) ∧
    ((∀ ad, i ≠ .new ad) → i ≠ .drop → t.owned = s.owned) ∧
    (t.hi ≠ s.hi → s.seq = .xfer1 ∧ t.seq = .xfer2 ∧ (i.transactions s.devaddr).length = 2) ∧
    (t.cmd ≠ s.cmd → s.seq = .idle ∧ t.seq = .xfer1 ∧ t.cmd = encode i) ∧
    (i.transactions s.devaddr = [] →
      t.cmd = s.cmd ∧ t.hi = s.hi ∧ t.log = s.log ∧ t.req = none ∧ t.seq = .idle ∧ t.tick = s.tick ∧
        t.transport = s.transport) ∧
    t.moves = s.moves

/-- R37, R46, R58: the sensor's registers across one step of a command. Acceptance leaves every one alone. When the ideal device
answers, the register that the outstanding write addresses holds the byte written, every other one reads as before, and a
transaction that is no such write leaves every known register as it was. -/
def Obligations.CommandsStoreOnlyWhereTheyWrite : Prop :=
  ∀ (i : Instr) (s t : State), exec i s = .next t →
    (s.seq = .idle → t.reg = s.reg ∧ t.pmode = s.pmode) ∧
    (∀ dev₀ a v, s.seq ≠ .idle → s.transport = .ideal dev₀ → s.req = some (.busWrite dev₀ [a, v]) →
      t.reg.read a.toNat = some v ∧ ∀ b, b ≠ a.toNat → t.reg.read b = s.reg.read b) ∧
    (∀ dev₀, s.seq ≠ .idle → s.transport = .ideal dev₀ → (∀ a v, s.req ≠ some (.busWrite dev₀ [a, v])) →
      ∀ b d, s.reg.read b = some d → t.reg.read b = some d)

/-! ## Whole commands, from acceptance to response -/

/-- R79, R80, R84, R93: a command with one transaction, accepted while a handle exists and answered once, whatever the answer: the
trace gains that transaction and nothing else, and the response is the error, or success with the byte read, if any. What the
answer does to the sensor's mode and to what is known of its registers (`sensorMode`, `sensorKnown`) is not of these rules: it rests
on R33 and R110 with assumptions 9 and 10. -/
def Obligations.OneTransactionCommandsRunWhole : Prop :=
  ∀ (i : Instr) (s : State) (q : BusRequest) (r : BusAnswer) (script : List BusAnswer) (later : List Move),
    i.transactions s.devaddr = [q] → s.seq = .idle → s.owned = true → s.transport = .scripted (r :: script) →
    r.fits q = true → s.moves = .present (encode i) :: .transport :: later →
    run 2 s = .next { s with
      cmd := encode i
      seq := .idle
      req := none
      rsp := match r with
        | .ok data => 0x000000#24 ++ data.headD 0x00#8
        | .err e => 0x01#8 ++ e.code ++ 0x0000#16
      rspValid := true
      log := s.log ++ [⟨q, r⟩]
      pmode := sensorMode q r s.pmode
      reg := sensorKnown q r s.reg
      transport := .scripted script
      moves := later }

/-- R85, R87, R88: a composed read, accepted while a handle exists. When the first answer is an error the command ends with it
after one transaction; when the second is, the command ends with it after two, and nothing of the upper byte is in the response;
when both are bytes, the response is success with `{u, l}`. -/
def Obligations.ComposedReadsRunWhole : Prop :=
  ∀ (i : Instr) (s : State) (q₁ q₂ : BusRequest) (script : List BusAnswer) (later : List Move),
    i.transactions s.devaddr = [q₁, q₂] → s.seq = .idle → s.owned = true →
    (∀ e, s.transport = .scripted (.err e :: script) → s.moves = .present (encode i) :: .transport :: later →
      ∃ t, run 2 s = .next t ∧ t.seq = .idle ∧ t.req = none ∧ t.rspValid = true ∧
        t.rsp = 0x01#8 ++ e.code ++ 0x0000#16 ∧ t.log = s.log ++ [⟨q₁, .err e⟩] ∧ t.hi = s.hi ∧
        t.owned = true ∧ t.devaddr = s.devaddr ∧ t.transport = .scripted script ∧ t.moves = later) ∧
    (∀ u e, s.transport = .scripted (.ok [u] :: .err e :: script) →
      s.moves = .present (encode i) :: .transport :: .transport :: later →
      ∃ t, run 3 s = .next t ∧ t.seq = .idle ∧ t.req = none ∧ t.rspValid = true ∧
        t.rsp = 0x01#8 ++ e.code ++ 0x0000#16 ∧ t.log = s.log ++ [⟨q₁, .ok [u]⟩, ⟨q₂, .err e⟩] ∧ t.hi = u ∧
        t.owned = true ∧ t.devaddr = s.devaddr ∧ t.transport = .scripted script ∧ t.moves = later) ∧
    (∀ u l, s.transport = .scripted (.ok [u] :: .ok [l] :: script) →
      s.moves = .present (encode i) :: .transport :: .transport :: later →
      ∃ t, run 3 s = .next t ∧ t.seq = .idle ∧ t.req = none ∧ t.rspValid = true ∧
        t.rsp = 0x0000#16 ++ u ++ l ∧ t.log = s.log ++ [⟨q₁, .ok [u]⟩, ⟨q₂, .ok [l]⟩] ∧ t.hi = u ∧
        t.owned = true ∧ t.devaddr = s.devaddr ∧ t.transport = .scripted script ∧ t.moves = later)

/-- R85: the value of a composed read equals the two single reads' values combined, upper shifted left by 8, OR lower. -/
def Obligations.ComposedReadAgreesWithTwoReads : Prop :=
  ∀ (s : State) (upper lower : RegAddr) (u l : Byte), s.seq = .idle → s.owned = true →
    ∃ t t₁ t₂ : State,
      run 3 { s with
        transport := .scripted [.ok [u], .ok [l]]
        moves := [.present (0x12#8 ++ upper ++ lower), .transport, .transport] } = .next t ∧
      run 2 { s with
        transport := .scripted [.ok [u]]
        moves := [.present (0x11#8 ++ upper ++ 0x00#8), .transport] } = .next t₁ ∧
      run 2 { s with
        transport := .scripted [.ok [l]]
        moves := [.present (0x11#8 ++ lower ++ 0x00#8), .transport] } = .next t₂ ∧
      statusField t.rsp = 0x00 ∧ statusField t₁.rsp = 0x00 ∧ statusField t₂.rsp = 0x00 ∧
      valueField t.rsp = (valueField t₁.rsp <<< 8) ||| valueField t₂.rsp

/-- R51, R128: against the ideal device, a sensor that rewrites both registers of a pair between the two transactions of a
composed read gives a torn value, the old upper byte with the new lower one, with status `OK`; before the first transaction, the
new value; after the second, the old one. -/
def Obligations.ComposedReadsCanBeTorn : Prop :=
  ∀ (i : Instr) (s : State) (a b : RegAddr) (h₀ l₀ h₁ l₁ : Byte) (later : List Move),
    i.transactions s.devaddr = [.busWriteRead s.devaddr [a] 1, .busWriteRead s.devaddr [b] 1] → a ≠ b → s.seq = .idle →
    s.owned = true → s.transport = .ideal s.devaddr → s.reg.read a.toNat = some h₀ → s.reg.read b.toNat = some l₀ →
    (s.moves = .present (encode i) :: .sample [(a, h₁), (b, l₁)] :: .transport :: .transport :: later →
      ∃ t, run 4 s = .next t ∧ t.rsp = 0x0000#16 ++ h₁ ++ l₁ ∧ t.rspValid = true) ∧
    (s.moves = .present (encode i) :: .transport :: .sample [(a, h₁), (b, l₁)] :: .transport :: later →
      ∃ t, run 4 s = .next t ∧ t.rsp = 0x0000#16 ++ h₀ ++ l₁ ∧ t.rspValid = true) ∧
    (s.moves = .present (encode i) :: .transport :: .transport :: .sample [(a, h₁), (b, l₁)] :: later →
      ∃ t, run 4 s = .next t ∧ t.rsp = 0x0000#16 ++ h₀ ++ l₀ ∧ t.rspValid = true)

/-! ## Errors and refusals (60_exceptions.md) -/

/-- R101: taking `BusError(e)`, for every command and phase that waits for an answer: the response `{0x01, e, 0x0000}`, valid; no
request outstanding; phase `IDLE`; everything else as the answer left it, which is the block's registers untouched. -/
def Obligations.BusErrorEndsTheCommand : Prop :=
  ∀ (i : Instr) (s t : State) (q : BusRequest) (e : BusErr), s.seq ≠ .idle →
    (i.transactions s.devaddr)[s.seq.index]? = some q → transportTurn s = .answered (.err e) t →
    AnswerRecorded s (.err e) t ∧
    exec i s = .next { t with rsp := 0x01#8 ++ e.code ++ 0x0000#16, rspValid := true, req := none, seq := .idle }

/-- R102, R103: a new response with status `BUS_ERROR` has one cause, an `Err(e)` answer to the outstanding request, which is the
transaction of the command in `CMD` that the phase says (so the command is one of the seven with transactions), and records `e` and
nothing else. -/
def Obligations.BusErrorHasOneCause : Prop :=
  ∀ s t : State, s.Inv → step s = .next t → t.rspValid = true → statusField t.rsp = 0x01#8 →
    s.rspValid = false ∨ t.rsp ≠ s.rsp →
    ∃ q e i, s.req = some q ∧ decode s.cmd = .ok i ∧ (i.transactions s.devaddr)[s.seq.index]? = some q ∧
      t.log = s.log ++ [⟨q, .err e⟩] ∧ t.rsp = 0x01#8 ++ e.code ++ 0x0000#16 ∧ t.req = none ∧ t.seq = .idle

/-- R66: the code of every error payload is one of `0x01` to `0xFF`, each code is one payload's, and the five named kinds have
the codes of the table. -/
def Obligations.ErrorCodesAreOneToOne : Prop :=
  (∀ e : BusErr, e.code ≠ 0x00#8) ∧ (∀ e e' : BusErr, e.code = e'.code → e = e') ∧
  (∀ c : Byte, c ≠ 0x00#8 → ∃ e : BusErr, e.code = c) ∧
  BusErr.noAcknowledge.code = 0x01#8 ∧ BusErr.arbitrationLoss.code = 0x02#8 ∧ BusErr.timeout.code = 0x03#8 ∧
  BusErr.busBusy.code = 0x04#8 ∧ BusErr.malformedTransaction.code = 0x05#8

/-- R64, R65, R66: in a state that meets the invariant a valid response has one of the three statuses; the error code is zero unless
the status is `BUS_ERROR`, and then it is not; the host has a value to use exactly when the status is `OK`, and the value field is
zero otherwise. -/
def Obligations.ResponsesAreOfThreeKinds : Prop :=
  ∀ (s : State) (r : ResponseWord), s.Inv → s.readResponse = some r →
    statusField r ∈ [0x00#8, 0x01#8, 0x02#8] ∧ (ecodeField r ≠ 0x00#8 ↔ statusField r = 0x01#8) ∧
    (statusField r = 0x00#8 → usableValue r = some (r.extractLsb' 0 16)) ∧
    (statusField r ≠ 0x00#8 → usableValue r = none ∧ r.extractLsb' 0 16 = 0x0000#16)

/-- R104, R109: an illegal word at the ready port is answered `ILLEGAL` in that step, handle or none, and changes nothing else. -/
def Obligations.IllegalWordIsAnsweredAtOnce : Prop :=
  ∀ (s : State) (w : CommandWord) (e : DecodeError) (rest : List Move), s.seq = .idle → s.req = none →
    s.moves = .present w :: rest → decode w = .error e →
    step s = .next { s with moves := rest, rsp := 0x02000000, rspValid := true }

/-- R105: the refusals by state: every command but `NEW` without a handle, and `NEW` with one. -/
def Obligations.RefusalsByStateAnswerIllegal : Prop :=
  ∀ (i : Instr) (s : State), s.seq = .idle → s.req = none →
    ((∀ ad, i ≠ .new ad) → s.owned = false → exec i s = .next { s with rsp := 0x02000000, rspValid := true }) ∧
    (∀ ad, i = .new ad → s.owned = true → exec i s = .next { s with rsp := 0x02000000, rspValid := true })

/-- R108: in the last phase of a command, a failure and a success leave the block in the same state but for the response: the
same phase, handle, address, latch and upper byte. What differs is the trace and what is known of the sensor. -/
def Obligations.FailureLeavesWhatSuccessLeaves : Prop :=
  ∀ (i : Instr) (s : State) (q : BusRequest) (e : BusErr) (data : List Byte) (script : List BusAnswer), s.seq ≠ .idle →
    (i.transactions s.devaddr)[s.seq.index]? = some q → (i.transactions s.devaddr).length = s.seq.index + 1 →
    s.req = some q → data.length = q.readCount →
    ∃ t t', exec i { s with transport := .scripted (.err e :: script) } = .next t ∧
      exec i { s with transport := .scripted (.ok data :: script) } = .next t' ∧
      t.seq = .idle ∧ t.owned = s.owned ∧ t.devaddr = s.devaddr ∧
      t' = { t with rsp := t'.rsp, log := t'.log, pmode := t'.pmode, reg := t'.reg }

/-- R40, R57, U14: what stops in the scripted mock bus: a script with no entry left, and an entry that does not fit its request.
Both are mistakes of the test and not behaviour of the hardware. -/
def Obligations.MistakesInTheScriptAreRefused : Prop :=
  ∀ (i : Instr) (s : State) (q : BusRequest), s.seq ≠ .idle → (i.transactions s.devaddr)[s.seq.index]? = some q →
    s.req = some q →
    (s.transport = .scripted [] → exec i s = .refused .scriptExhausted) ∧
    (∀ data script, s.transport = .scripted (.ok data :: script) → data.length ≠ q.readCount →
      exec i s = .refused .answerShape)

/-- R113, R55: from a state that meets the invariant no step faults, with the unconstrained transport every step has a next
state, and after any response the block is in phase `IDLE` and ready for any command. -/
def Obligations.NothingStopsTheBlock : Prop :=
  ∀ s : State, s.Inv →
    (∀ f, step s ≠ .fault f) ∧ (s.transport = .oracle → ∃ t, step s = .next t) ∧
    (∀ t, step s = .next t → t.rspValid = true → t.seq = .idle ∧ t.ready = true)

/-! ## The step and the ports (10_state.md, 30_encoding.md) -/

/-- R59, R69, R19: a step runs the decoded command: the word at the ready port, or the word latched in `CMD` while the sequencer
is busy; and a word placed by `withFetchWord` is the one the very next step runs. -/
def Obligations.StepRunsTheDecodedCommand : Prop :=
  ∀ (s : State) (w : CommandWord) (i : Instr) (rest : List Move), decode w = .ok i →
    (s.seq = .idle → s.moves = .present w :: rest → step s = exec i { s with moves := rest }) ∧
    (s.seq ≠ .idle → s.cmd = w → s.moves = .transport :: rest → step s = exec i { s with moves := rest }) ∧
    (s.seq ≠ .idle → s.cmd = w → s.moves = [] → step s = exec i s) ∧
    step (s.withFetchWord 24 w.toNat) = exec i { s with seq := .idle, req := none }

/-- R60: a word presented while the block is busy stays with the host. -/
def Obligations.BusyPortLeavesTheWordWithTheHost : Prop :=
  ∀ (s t : State) (w : CommandWord) (rest : List Move), s.seq ≠ .idle → s.moves = .present w :: rest → step s = .next t →
    t.moves = .present w :: rest

/-- R112: with nothing else to come, the block either has waited in its phase for `n` steps with nothing but the model's counter
changed, or the transport has answered at one of them. -/
def Obligations.BlockWaitsUntilItIsAnswered : Prop :=
  ∀ (s : State) (q : BusRequest) (n : Nat), s.Inv → s.seq ≠ .idle → s.req = some q → s.transport = .oracle → s.moves = [] →
    run n s = .next { s with tick := s.tick + n } ∨
    ∃ k, k < n ∧ Config.transportAnswers (s.tick + k) q = true

/-- R107, R21: an idle block that is given no word does nothing, and its response stays, whatever the sensor does. -/
def Obligations.IdleBlockDoesNothing : Prop :=
  ∀ s t : State, s.seq = .idle → (∀ w rest, s.moves ≠ .present w :: rest) → (∀ rest, s.moves ≠ .hostReset :: rest) →
    step s = .next t → t.blockView = s.blockView ∧ t.hostView = s.hostView

/-- R134: when a run is over nothing is in flight and the last response is valid, or no command was ever issued; and whatever the
transport and the sensor still do, the block and what the host observes of it stay as they are. -/
def Obligations.RunsAreOverOnlyInIdle : Prop :=
  ∀ (n : Nat) (s : State), s.Inv → s.runOver = true → .hostReset ∉ s.moves →
    s.req = none ∧ (s.rspValid = true ∨ (s.owned = false ∧ s.trace = [])) ∧
    ∃ t, run n s = .next t ∧ t.blockView = s.blockView ∧ t.hostView = s.hostView ∧ t.runOver = true

/-- R122, V-F1: the first word after reset ends in the step that accepts it, whatever it is, with a valid response and no
transaction. -/
def Obligations.FirstWordAfterResetEndsAtOnce : Prop :=
  ∀ w : CommandWord, ∃ t, step (State.reset.withFetchWord 24 w.toNat) = .next t ∧ t.seq = .idle ∧ t.rspValid = true ∧
    t.req = none ∧ t.trace = []

/-- R122: the reset values the spec gives. -/
def Obligations.ResetValues : Prop :=
  State.reset.owned = false ∧ State.reset.seq = .idle ∧ State.reset.rspValid = false ∧ State.reset.req = none ∧
  State.reset.trace = [] ∧ State.reset.readResponse = none ∧ State.reset.ready = true

/-- R121 to R124: the reset of the block, from every state. It sends nothing and leaves the sensor alone, unless a transaction was
outstanding: then nothing is known of the sensor, and the next answers are unconstrained (assumption 13). -/
def Obligations.ResetOfTheBlock : Prop :=
  ∀ (s : State) (rest : List Move), s.moves = .hostReset :: rest →
    ∃ t, step s = .next t ∧ t.owned = false ∧ t.seq = .idle ∧ t.rspValid = false ∧ t.req = none ∧ t.trace = [] ∧
      t.moves = rest ∧
      (s.req = none → t.pmode = s.pmode ∧ t.reg = s.reg ∧ t.transport = s.transport) ∧
      (s.req ≠ none → t.pmode = .unknown ∧ t.reg = [] ∧ t.transport = .oracle)

/-! ## Invariants and rules of the whole machine -/

/-- The reset state meets the invariant. -/
def Obligations.ResetMeetsTheInvariant : Prop := State.reset.Inv

/-- R17, R18, R19, R20, R34, R64, R73: every step keeps the invariant: sequencer, latch and outstanding request agree; a handle
holds a legal address; a valid response is one of the three kinds; every transaction has one of the two formats and an answer that
fits; between two reads `HI` holds the byte just read; the register list is canonical. -/
def Obligations.StepKeepsTheInvariant : Prop :=
  ∀ s t : State, s.Inv → step s = .next t → t.Inv

/-- R19, R135: the only transitions of the sequencer, with their causes. A step that keeps a busy phase has had no answer: the request,
the trace and the latch are as they were. A step from a busy phase to `IDLE` has had the answer to the command's outstanding
transaction: an error, or the bytes asked for when the command has no further transaction. -/
def Obligations.SequencerTransitions : Prop :=
  ∀ s t : State, s.Inv → (∀ rest, s.moves ≠ .hostReset :: rest) → step s = .next t →
    (t.seq = s.seq ∧ (s.seq ≠ .idle → t.req = s.req ∧ t.log = s.log ∧ t.cmd = s.cmd)) ∨
    (s.seq = .idle ∧ t.seq = .xfer1 ∧ s.owned = true ∧ ∃ w rest i, s.moves = .present w :: rest ∧ decode w = .ok i ∧
      t.cmd = w ∧ t.req = (i.transactions s.devaddr)[0]? ∧ t.rspValid = false) ∨
    (s.seq = .xfer1 ∧ t.seq = .xfer2 ∧ ∃ i q₁ q₂ u, decode s.cmd = .ok i ∧ i.transactions s.devaddr = [q₁, q₂] ∧
      t.log = s.log ++ [⟨q₁, .ok [u]⟩] ∧ t.hi = u ∧ t.req = some q₂) ∨
    (s.seq ≠ .idle ∧ t.seq = .idle ∧ t.rspValid = true ∧ t.req = none ∧
      ∃ i q, decode s.cmd = .ok i ∧ s.req = some q ∧ (i.transactions s.devaddr)[s.seq.index]? = some q ∧
        ((∃ e, t.log = s.log ++ [⟨q, .err e⟩] ∧ statusField t.rsp = 0x01#8) ∨
          ∃ data, t.log = s.log ++ [⟨q, .ok data⟩] ∧ data.length = q.readCount ∧
            (i.transactions s.devaddr).length = s.seq.index + 1 ∧ statusField t.rsp = 0x00#8))

/-- R17, R36: while a handle lives, its device address does not change, in any state and whatever the step is. -/
def Obligations.DeviceAddressIsImmutable : Prop :=
  ∀ s t : State, step s = .next t → s.owned = true → t.owned = true → t.devaddr = s.devaddr

/-- R16: only `NEW`, `DROP` and a reset change the ownership of the bus. -/
def Obligations.OwnershipChangesOnlyByItsCommands : Prop :=
  ∀ s t : State, step s = .next t → t.owned ≠ s.owned →
    (∃ rest, s.moves = .hostReset :: rest) ∨
    (s.seq = .idle ∧ ∃ w rest, s.moves = .present w :: rest ∧
      ((s.owned = false ∧ ∃ ad, decode w = .ok (.new ad)) ∨ (s.owned = true ∧ decode w = .ok .drop)))

/-- R20: `HI` is written by the answer to the first read of a composed read, with the byte read, and by nothing else but a
reset. -/
def Obligations.UpperByteIsWrittenOnlyByItsRead : Prop :=
  ∀ s t : State, step s = .next t → t.hi ≠ s.hi →
    (∃ rest, s.moves = .hostReset :: rest) ∨
    (s.seq = .xfer1 ∧ t.seq = .xfer2 ∧ ∃ q, s.req = some q ∧ t.log = s.log ++ [⟨q, .ok [t.hi]⟩])

/-- R16: without a handle no step issues a transaction or adds one to the trace. -/
def Obligations.NoTransactionWithoutAHandle : Prop :=
  ∀ s t : State, s.Inv → s.owned = false → (∀ rest, s.moves ≠ .hostReset :: rest) → step s = .next t →
    t.req = none ∧ t.trace = s.trace

/-- R42, R50: one transaction at a time: a step leaves the trace as it is, issues one transaction when none is outstanding, or
answers the outstanding one, and only then, and only on success, may the next be issued. -/
def Obligations.OneTransactionAtATime : Prop :=
  ∀ s t : State, (∀ rest, s.moves ≠ .hostReset :: rest) → s.Inv → step s = .next t →
    t.trace = s.trace ∨
    (s.req = none ∧ ∃ q, t.trace = s.trace ++ [(q, none)]) ∨
    (∃ q r, s.req = some q ∧ t.req = none ∧ t.log = s.log ++ [⟨q, r⟩]) ∨
    (∃ q d q', s.req = some q ∧ t.req = some q' ∧ t.log = s.log ++ [⟨q, .ok [d]⟩])

/-- R73, R36: in a state that meets the invariant, every transaction of the trace, the outstanding one included, has one of the two
formats and goes to `0x68` or `0x69`; the outstanding one goes to `DEVADDR`. -/
def Obligations.EveryTransactionHasALegalFormat : Prop :=
  ∀ s : State, s.Inv →
    (∀ e ∈ s.trace,
      (∃ dev a v, e.1 = .busWrite dev [a, v] ∧ (dev = 0x68#7 ∨ dev = 0x69#7)) ∨
      (∃ dev a, e.1 = .busWriteRead dev [a] 1 ∧ (dev = 0x68#7 ∨ dev = 0x69#7))) ∧
    ∀ q, s.req = some q → q.dev = s.devaddr

/-- R33, D23: the sensor's mode is taken for `LowNoise` only after a successful write of `0x03` to register `0x1F`, and for `Idle`
only after the sensor's own power-on; any other write makes it unknown (for a register other than `0x1F`, assumption 9). -/
def Obligations.SensorModeIsKnownOnlyFromItsCauses : Prop :=
  (∀ s t : State, step s = .next t → t.pmode = .lowNoise → s.pmode = .lowNoise ∨
    ∃ dev data, s.req = some (.busWrite dev [0x1F, 0x03]) ∧ t.log = s.log ++ [⟨.busWrite dev [0x1F, 0x03], .ok data⟩]) ∧
  (∀ s t : State, step s = .next t → t.pmode = .idle → s.pmode = .idle ∨ ∃ rest, s.moves = .sensorPowerOn :: rest) ∧
  (∀ (s t : State) (dev : DevAddr) (a : RegAddr) (v : Byte) (r : BusAnswer), s.req = some (.busWrite dev [a, v]) →
    transportTurn s = .answered r t →
    (a = 0x1F#8 ∧ v = 0x03#8 ∧ (∃ data, r = .ok data) → t.pmode = .lowNoise) ∧
    (¬(a = 0x1F#8 ∧ v = 0x03#8 ∧ ∃ data, r = .ok data) → t.pmode = .unknown))

/-- R58: the ideal device. It answers a write with `Ok` and holds the byte; a read with the byte it holds; a request to another
address with `Err(NoAcknowledge)`. A register nothing has set yet is read as some byte, which it then holds (assumption 11). -/
def Obligations.IdealDeviceHoldsWhatIsWritten : Prop :=
  ∀ (s : State) (dev₀ dev : DevAddr) (a : RegAddr), s.transport = .ideal dev₀ →
    (∀ v, s.req = some (.busWrite dev [a, v]) → dev = dev₀ →
      ∃ t, transportTurn s = .answered (.ok []) t ∧ t.reg.read a.toNat = some v ∧
        ∀ b, b ≠ a.toNat → t.reg.read b = s.reg.read b) ∧
    (s.req = some (.busWriteRead dev [a] 1) → dev = dev₀ →
      ∃ d t, transportTurn s = .answered (.ok [d]) t ∧ t.reg.read a.toNat = some d ∧
        (∀ d', s.reg.read a.toNat = some d' → d = d') ∧ ∀ b, b ≠ a.toNat → t.reg.read b = s.reg.read b) ∧
    (∀ q, s.req = some q → q.dev ≠ dev₀ → ∃ t, transportTurn s = .answered (.err .noAcknowledge) t ∧ t.reg = s.reg)

/-- R98, R24, R119: no run of the block depends on the sensor's mode; and unless the ideal device answers, none depends on what is
known of its registers. -/
def Obligations.BlockNeverReadsTheSensorMode : Prop :=
  ∀ (n : Nat) (s : State) (p : PowerMode) (m : Memory),
    mapNext State.blockView (run n { s with pmode := p }) = mapNext State.blockView (run n s) ∧
    ((∀ dev₀, s.transport ≠ .ideal dev₀) →
      mapNext State.blockView (run n { s with pmode := p, reg := m }) = mapNext State.blockView (run n s))

/-- R23, R56, R108: no run reads the last response or the trace: two machines that differ only there go on alike in everything
else. -/
def Obligations.ResponseAndTraceAreNeverRead : Prop :=
  ∀ (n : Nat) (s : State) (r : ResponseWord) (l : List Transaction),
    mapNext (fun t => { t with rsp := 0, log := [] }) (run n { s with rsp := r, log := l }) =
      mapNext (fun t => { t with rsp := 0, log := [] }) (run n s)

/-- R100: the device address is the only thing `ad` changes. Under every sequence of answers (a script, or an ideal device at the
matching address), a run with the other address is the same run with the other address in every request: the same phases, the same
responses, the same bytes. A reset is left out, since it puts the block back to one named address (assumption 2). So a run that
begins with `NEW AD1` is the run that begins with `NEW AD0` from the same state, with the other address in every request. -/
def Obligations.DeviceAddressIsAllThatAdChanges : Prop :=
  (∀ (n : Nat) (s : State), s.transport ≠ .oracle → .hostReset ∉ s.moves →
    run n s.swapAddress = mapNext State.swapAddress (run n s)) ∧
  ∀ (n : Nat) (s : State) (script : List BusAnswer) (later : List Move), s.seq = .idle → s.owned = false → s.req = none →
    s.log = [] → .hostReset ∉ later →
    run (n + 1) { s with transport := .scripted script, moves := .present 0x010001 :: later.map Move.swap } =
      mapNext State.swapAddress (run (n + 1) { s with transport := .scripted script, moves := .present 0x010000 :: later })

/-! ## The sensor and what is known of it -/

/-- R32, R51, R58, R33: a move of the sensor, in whatever phase it comes, leaves every register of the block, the request, the trace
and the transport as they are. A sample sets the registers it names, each to the last byte it gives for it, and no other; a power-on
makes the mode `Idle` and leaves no register known (assumption 21). -/
def Obligations.SensorMovesLeaveTheBlock : Prop :=
  ∀ (s : State) (rest : List Move),
    (∀ cells, s.moves = .sample cells :: rest → ∃ m : Memory, step s = .next { s with moves := rest, reg := m } ∧
      (∀ b, (∀ c ∈ cells, c.1.toNat ≠ b) → m.read b = s.reg.read b) ∧
      ∀ before a v after, cells = before ++ (a, v) :: after → (∀ c ∈ after, c.1 ≠ a) → m.read a.toNat = some v) ∧
    (s.moves = .sensorPowerOn :: rest → step s = .next { s with moves := rest, pmode := .idle, reg := [] })

/-- R110, U10: what is known of the sensor's registers changes by an answer, a move of the sensor or a reset, and by nothing else. With
the scripted or the unconstrained transport, a failed write leaves the addressed register without a known value and every other one
as it was, and a failed read changes nothing that is known; after an `Ok` nothing is known (assumption 10). -/
def Obligations.KnownRegistersChangeOnlyByTheirCauses : Prop :=
  ∀ s t : State, s.Inv → step s = .next t →
    ((∀ cells rest, s.moves ≠ .sample cells :: rest) → (∀ rest, s.moves ≠ .sensorPowerOn :: rest) →
      (∀ rest, s.moves ≠ .hostReset :: rest) → t.log = s.log → t.reg = s.reg) ∧
    ((∀ dev₀, s.transport ≠ .ideal dev₀) →
      (∀ dev a v e, t.log = s.log ++ [⟨.busWrite dev [a, v], .err e⟩] →
        t.reg.read a.toNat = none ∧ ∀ b, b ≠ a.toNat → t.reg.read b = s.reg.read b) ∧
      (∀ dev wbytes n e, t.log = s.log ++ [⟨.busWriteRead dev wbytes n, .err e⟩] → t.reg = s.reg) ∧
      ∀ q data, t.log = s.log ++ [⟨q, .ok data⟩] → ∀ b, t.reg.read b = none)
end

