-- ==== Sys2Proof/Laws/Word.lean ====
section
/-!
SUPPORT. The packings and their fields: a field of a packed word is what was packed, a word is its fields packed, and the
composition is concatenation (R61, R63, R86).
-/

namespace Sys2Proof

theorem packWord_bit (op a b : Byte) (i : Nat) :
    (packWord op a b).getLsbD i =
      if i < 8 then b.getLsbD i else if i < 16 then a.getLsbD (i - 8) else op.getLsbD (i - 16) := by
  unfold packWord
  rw [BitVec.getLsbD_cast, BitVec.getLsbD_append]
  split
  · rfl
  · rw [BitVec.getLsbD_append]
    grind

@[simp] theorem opField_packWord (op a b : Byte) : opField (packWord op a b) = op := by
  apply BitVec.eq_of_getLsbD_eq; intro i hi
  simp [opField, packWord_bit, hi]
  grind

@[simp] theorem aField_packWord (op a b : Byte) : aField (packWord op a b) = a := by
  apply BitVec.eq_of_getLsbD_eq; intro i hi
  simp [aField, packWord_bit, hi]
  grind

@[simp] theorem bField_packWord (op a b : Byte) : bField (packWord op a b) = b := by
  apply BitVec.eq_of_getLsbD_eq; intro i hi
  simp [bField, packWord_bit, hi]

/-- A word is its three fields (R61). -/
theorem packWord_fields (w : CommandWord) : packWord (opField w) (aField w) (bField w) = w := by
  apply BitVec.eq_of_getLsbD_eq; intro i hi
  rw [packWord_bit]
  simp only [opField, aField, bField, BitVec.getLsbD_extractLsb']
  grind

namespace Machine

theorem packResponse_bit (st ec : Byte) (v : Reading) (i : Nat) :
    (packResponse st ec v).getLsbD i =
      if i < 16 then v.getLsbD i else if i < 24 then ec.getLsbD (i - 16) else st.getLsbD (i - 24) := by
  unfold packResponse
  rw [BitVec.getLsbD_cast, BitVec.getLsbD_append]
  split
  · rfl
  · rw [BitVec.getLsbD_append]
    grind

@[simp] theorem statusField_packResponse (st ec : Byte) (v : Reading) : statusField (packResponse st ec v) = st := by
  apply BitVec.eq_of_getLsbD_eq; intro i hi
  simp [statusField, packResponse_bit, hi]
  grind

@[simp] theorem ecodeField_packResponse (st ec : Byte) (v : Reading) : ecodeField (packResponse st ec v) = ec := by
  apply BitVec.eq_of_getLsbD_eq; intro i hi
  simp [ecodeField, packResponse_bit, hi]
  grind

@[simp] theorem valueField_packResponse (st ec : Byte) (v : Reading) : valueField (packResponse st ec v) = v := by
  apply BitVec.eq_of_getLsbD_eq; intro i hi
  simp [valueField, packResponse_bit, hi]

/-- The composition is the concatenation, upper byte in the high bits (R86). -/
theorem compose_eq_append (u l : Byte) : compose u l = u ++ l := by
  apply BitVec.eq_of_getLsbD_eq; intro i hi
  rw [BitVec.getLsbD_append]
  simp [compose]
  grind

@[simp] theorem deviceAddress_ad0 : deviceAddress .ad0 = 0x68#7 := by decide

@[simp] theorem deviceAddress_ad1 : deviceAddress .ad1 = 0x69#7 := by decide

theorem deviceAddress_legal (ad : AddrSelect) : DevAddr.legal (deviceAddress ad) = true := by cases ad <;> decide

/-- No error payload has the code zero (R66). -/
theorem busErr_code_ne_zero (e : BusErr) : e.code ≠ 0#8 := by
  cases e with
  | transportDefined k =>
    intro h
    have := congrArg BitVec.toNat h
    simp [BusErr.code] at this
    omega
  | noAcknowledge => decide
  | arbitrationLoss => decide
  | timeout => decide
  | busBusy => decide
  | malformedTransaction => decide

end Machine

end Sys2Proof
end

