-- ==== Sys2Proof/Laws/Decode.lean ====
section
/-!
SUPPORT. The decoder and the encoder: the fields of an encoded command, and the shape of the word a command is decoded from
(R62, R68, R69).
-/

namespace Sys2Proof

@[simp] theorem opField_encode (i : Instr) : opField (encode i) = i.opcode := by cases i <;> simp [encode]

/-- The words that decode to a command, by opcode and operand fields (R68, R70). -/
def Instr.fieldsAre (op a b : Byte) : Instr → Prop
  | .new ad => op = 0x01 ∧ a = 0 ∧ b = ad.bit.setWidth 8
  | .drop => op = 0x02 ∧ a = 0 ∧ b = 0
  | .writeRegister reg value => op = 0x10 ∧ a = reg ∧ b = value
  | .readRegister reg => op = 0x11 ∧ a = reg ∧ b = 0
  | .readRegisterAsU16 upper lower => op = 0x12 ∧ a = upper ∧ b = lower
  | .setAccelLowNoiseMode => op = 0x20 ∧ a = 0 ∧ b = 0
  | .readAccelX => op = 0x21 ∧ a = 0 ∧ b = 0
  | .readAccelY => op = 0x22 ∧ a = 0 ∧ b = 0
  | .readAccelZ => op = 0x23 ∧ a = 0 ∧ b = 0

theorem decodeFormatN_ok {j i : Instr} {op a b : Byte} (h : decodeFormatN j op a b = .ok i) : i = j ∧ a = 0 ∧ b = 0 := by
  unfold decodeFormatN at h
  split at h
  · cases h; exact ⟨rfl, ‹_›⟩
  · cases h

theorem decodeFormatA_ok {mk : AddrSelect → Instr} {i : Instr} {op a b : Byte} (h : decodeFormatA mk op a b = .ok i) :
    ∃ ad, i = mk ad ∧ a = 0 ∧ b = ad.bit.setWidth 8 := by
  unfold decodeFormatA at h
  split at h
  · rename_i hz
    cases h; exact ⟨.ad0, rfl, hz.1, by simpa [AddrSelect.bit] using hz.2⟩
  · split at h
    · rename_i hz
      cases h; exact ⟨.ad1, rfl, hz.1, by simpa [AddrSelect.bit] using hz.2⟩
    · cases h

theorem decodeFormatR_ok {mk : RegAddr → Instr} {i : Instr} {op a b : Byte} (h : decodeFormatR mk op a b = .ok i) :
    i = mk a ∧ b = 0 := by
  unfold decodeFormatR at h
  split at h
  · cases h; exact ⟨rfl, ‹_›⟩
  · cases h

/-- What a decoded word looks like (R68). -/
theorem decodeFields_ok {op a b : Byte} {i : Instr} (h : decodeFields op a b = .ok i) : i.fieldsAre op a b := by
  unfold decodeFields at h
  split at h
  · obtain ⟨ad, rfl, h1, h2⟩ := decodeFormatA_ok h; exact ⟨‹_›, h1, h2⟩
  split at h
  · obtain ⟨rfl, h1, h2⟩ := decodeFormatN_ok h; exact ⟨‹_›, h1, h2⟩
  split at h
  · cases h; exact ⟨‹_›, rfl, rfl⟩
  split at h
  · obtain ⟨rfl, h1⟩ := decodeFormatR_ok h; exact ⟨‹_›, rfl, h1⟩
  split at h
  · cases h; exact ⟨‹_›, rfl, rfl⟩
  split at h
  · obtain ⟨rfl, h1, h2⟩ := decodeFormatN_ok h; exact ⟨‹_›, h1, h2⟩
  split at h
  · obtain ⟨rfl, h1, h2⟩ := decodeFormatN_ok h; exact ⟨‹_›, h1, h2⟩
  split at h
  · obtain ⟨rfl, h1, h2⟩ := decodeFormatN_ok h; exact ⟨‹_›, h1, h2⟩
  split at h
  · obtain ⟨rfl, h1, h2⟩ := decodeFormatN_ok h; exact ⟨‹_›, h1, h2⟩
  · cases h

/-- The decoder finds the command whose fields a word has (R68). -/
theorem decodeFields_of_fieldsAre {op a b : Byte} {i : Instr} (h : i.fieldsAre op a b) : decodeFields op a b = .ok i := by
  cases i with
  | new ad => obtain ⟨rfl, rfl, rfl⟩ := h; cases ad <;> rfl
  | drop => obtain ⟨rfl, rfl, rfl⟩ := h; rfl
  | writeRegister reg value => obtain ⟨rfl, rfl, rfl⟩ := h; rfl
  | readRegister reg => obtain ⟨rfl, rfl, rfl⟩ := h; rfl
  | readRegisterAsU16 upper lower => obtain ⟨rfl, rfl, rfl⟩ := h; rfl
  | setAccelLowNoiseMode => obtain ⟨rfl, rfl, rfl⟩ := h; rfl
  | readAccelX => obtain ⟨rfl, rfl, rfl⟩ := h; rfl
  | readAccelY => obtain ⟨rfl, rfl, rfl⟩ := h; rfl
  | readAccelZ => obtain ⟨rfl, rfl, rfl⟩ := h; rfl

end Sys2Proof
end

