-- ==== Sys2Proof/Laws/Memory.lean ====
section
/-!
SUPPORT. The sensor's register space: a register reads as it was last written, every other one is left alone, and every
operation keeps the canonical form (R32, R37).
-/

namespace Sys2Proof.Machine

@[simp] theorem Memory.read_write_same (m : Memory) (a : Nat) (v : Byte) : (m.write a v).read a = some v := by
  induction m with
  | nil => simp [Memory.write, Memory.read]
  | cons c m ih =>
    obtain ⟨k, w⟩ := c
    simp only [Memory.write]
    split
    · simp [Memory.read]
    · split
      · simp [Memory.read]
      · have : k ≠ a := fun h => by simp_all
        simp [Memory.read, this, ih]

theorem Memory.read_write_other (m : Memory) {a b : Nat} (v : Byte) (h : b ≠ a) : (m.write a v).read b = m.read b := by
  induction m with
  | nil => simp [Memory.write, Memory.read, h.symm]
  | cons c m ih =>
    obtain ⟨k, w⟩ := c
    simp only [Memory.write]
    split
    · simp [Memory.read, h.symm]
    · split
      · subst a; simp [Memory.read, h.symm]
      · simp [Memory.read, ih]

theorem Memory.risingFrom_mono {lo lo' : Nat} {m : Memory} (h : m.risingFrom lo' = true) (hl : lo ≤ lo') :
    m.risingFrom lo = true := by
  cases m with
  | nil => rfl
  | cons c m =>
    simp only [Memory.risingFrom, Bool.and_eq_true, decide_eq_true_eq] at h ⊢
    exact ⟨⟨by omega, h.1.2⟩, h.2⟩

theorem Memory.risingFrom_write {m : Memory} {lo a : Nat} (v : Byte) (h : m.risingFrom lo = true) (hl : lo ≤ a)
    (ha : a < 256) : (m.write a v).risingFrom lo = true := by
  induction m generalizing lo with
  | nil => simp [Memory.write, Memory.risingFrom, hl, ha]
  | cons c m ih =>
    obtain ⟨k, w⟩ := c
    simp [Memory.risingFrom] at h
    simp only [Memory.write]
    split
    · simp [Memory.risingFrom, h, hl, ha]
      omega
    · split
      · subst a; simp [Memory.risingFrom, h]
      · simp [Memory.risingFrom, h]
        exact ih h.2 (by omega)

theorem Memory.risingFrom_forget {m : Memory} {lo : Nat} (a : Nat) (h : m.risingFrom lo = true) :
    (m.forget a).risingFrom lo = true := by
  induction m generalizing lo with
  | nil => rfl
  | cons c m ih =>
    obtain ⟨k, w⟩ := c
    simp [Memory.risingFrom] at h
    simp only [Memory.forget]
    split
    · exact Memory.risingFrom_mono h.2 (by omega)
    · simp [Memory.risingFrom, h]; exact ih h.2

@[simp] theorem Memory.wf_nil : Memory.wf [] = true := rfl

/-- The reset state lists no register. -/
theorem reset_memory_wf : State.reset.reg.wf = true := rfl

theorem Memory.wf_write {m : Memory} (a : RegAddr) (v : Byte) (h : m.wf = true) : (m.write a.toNat v).wf = true :=
  Memory.risingFrom_write v h (Nat.zero_le _) a.isLt

theorem Memory.wf_forget {m : Memory} (a : Nat) (h : m.wf = true) : (m.forget a).wf = true :=
  Memory.risingFrom_forget a h

theorem Memory.wf_writeAll {m : Memory} (cells : List (RegAddr × Byte)) (h : m.wf = true) : (m.writeAll cells).wf = true := by
  induction cells generalizing m with
  | nil => exact h
  | cons c cells ih => exact ih (Memory.wf_write c.1 c.2 h)

/-- Setting several registers leaves every register they do not name. -/
theorem Memory.read_writeAll_other {m : Memory} {cells : List (RegAddr × Byte)} {b : Nat} (h : ∀ c ∈ cells, c.1.toNat ≠ b) :
    (m.writeAll cells).read b = m.read b := by
  induction cells generalizing m with
  | nil => rfl
  | cons c cells ih =>
    rw [Memory.writeAll, ih fun d hd => h d (.tail _ hd), Memory.read_write_other _ _ (h c (.head _)).symm]

theorem Memory.writeAll_append (m : Memory) (cells cells' : List (RegAddr × Byte)) :
    m.writeAll (cells ++ cells') = (m.writeAll cells).writeAll cells' := by
  induction cells generalizing m with
  | nil => rfl
  | cons c cells ih => exact ih _

/-- In a canonical list a forgotten register reads as no value. -/
theorem Memory.read_none_below {m : Memory} {lo a : Nat} (h : m.risingFrom lo = true) (ha : a < lo) : m.read a = none := by
  induction m generalizing lo with
  | nil => rfl
  | cons c m ih =>
    obtain ⟨k, w⟩ := c
    simp [Memory.risingFrom] at h
    have : k ≠ a := by omega
    simp [Memory.read, this]
    exact ih h.2 (by omega)

theorem Memory.read_forget_same {m : Memory} (a : Nat) (h : m.wf = true) : (m.forget a).read a = none := by
  suffices ∀ lo, m.risingFrom lo = true → (m.forget a).read a = none from this 0 h
  clear h
  induction m with
  | nil => intros; rfl
  | cons c m ih =>
    obtain ⟨k, w⟩ := c
    intro lo h
    simp [Memory.risingFrom] at h
    simp only [Memory.forget]
    split
    · exact Memory.read_none_below h.2 (by omega)
    · rename_i hk
      simp [Memory.read, hk, ih _ h.2]

theorem Memory.read_forget_other (m : Memory) {a b : Nat} (h : b ≠ a) : (m.forget a).read b = m.read b := by
  induction m with
  | nil => rfl
  | cons c m ih =>
    obtain ⟨k, w⟩ := c
    simp only [Memory.forget]
    split
    · subst a; simp [Memory.read, h.symm]
    · simp [Memory.read, ih]

end Sys2Proof.Machine
end

