-- ==== Sys2Proof/Laws/State.lean ====
section
/-!
SUPPORT. One lemma per field per update of the state, true by rfl, so that no later proof unfolds an update.
-/

namespace Sys2Proof.Machine

@[simp] theorem issue_owned (q : BusRequest) (p : Phase) (s : State) : (issue q p s).owned = s.owned := rfl
@[simp] theorem issue_devaddr (q : BusRequest) (p : Phase) (s : State) : (issue q p s).devaddr = s.devaddr := rfl
@[simp] theorem issue_seq (q : BusRequest) (p : Phase) (s : State) : (issue q p s).seq = p := rfl
@[simp] theorem issue_cmd (q : BusRequest) (p : Phase) (s : State) : (issue q p s).cmd = s.cmd := rfl
@[simp] theorem issue_hi (q : BusRequest) (p : Phase) (s : State) : (issue q p s).hi = s.hi := rfl
@[simp] theorem issue_rsp (q : BusRequest) (p : Phase) (s : State) : (issue q p s).rsp = s.rsp := rfl
@[simp] theorem issue_rspValid (q : BusRequest) (p : Phase) (s : State) : (issue q p s).rspValid = s.rspValid := rfl
@[simp] theorem issue_req (q : BusRequest) (p : Phase) (s : State) : (issue q p s).req = some q := rfl
@[simp] theorem issue_log (q : BusRequest) (p : Phase) (s : State) : (issue q p s).log = s.log := rfl
@[simp] theorem issue_pmode (q : BusRequest) (p : Phase) (s : State) : (issue q p s).pmode = s.pmode := rfl
@[simp] theorem issue_reg (q : BusRequest) (p : Phase) (s : State) : (issue q p s).reg = s.reg := rfl
@[simp] theorem issue_transport (q : BusRequest) (p : Phase) (s : State) : (issue q p s).transport = s.transport := rfl
@[simp] theorem issue_moves (q : BusRequest) (p : Phase) (s : State) : (issue q p s).moves = s.moves := rfl
@[simp] theorem issue_tick (q : BusRequest) (p : Phase) (s : State) : (issue q p s).tick = s.tick := rfl

@[simp] theorem latchCommand_owned (w : CommandWord) (s : State) : (latchCommand w s).owned = s.owned := rfl
@[simp] theorem latchCommand_devaddr (w : CommandWord) (s : State) : (latchCommand w s).devaddr = s.devaddr := rfl
@[simp] theorem latchCommand_seq (w : CommandWord) (s : State) : (latchCommand w s).seq = s.seq := rfl
@[simp] theorem latchCommand_cmd (w : CommandWord) (s : State) : (latchCommand w s).cmd = w := rfl
@[simp] theorem latchCommand_hi (w : CommandWord) (s : State) : (latchCommand w s).hi = s.hi := rfl
@[simp] theorem latchCommand_rsp (w : CommandWord) (s : State) : (latchCommand w s).rsp = s.rsp := rfl
@[simp] theorem latchCommand_rspValid (w : CommandWord) (s : State) : (latchCommand w s).rspValid = false := rfl
@[simp] theorem latchCommand_req (w : CommandWord) (s : State) : (latchCommand w s).req = s.req := rfl
@[simp] theorem latchCommand_log (w : CommandWord) (s : State) : (latchCommand w s).log = s.log := rfl
@[simp] theorem latchCommand_pmode (w : CommandWord) (s : State) : (latchCommand w s).pmode = s.pmode := rfl
@[simp] theorem latchCommand_reg (w : CommandWord) (s : State) : (latchCommand w s).reg = s.reg := rfl
@[simp] theorem latchCommand_transport (w : CommandWord) (s : State) : (latchCommand w s).transport = s.transport := rfl
@[simp] theorem latchCommand_moves (w : CommandWord) (s : State) : (latchCommand w s).moves = s.moves := rfl
@[simp] theorem latchCommand_tick (w : CommandWord) (s : State) : (latchCommand w s).tick = s.tick := rfl

@[simp] theorem endCommand_owned (st ec : Byte) (v : Reading) (s : State) : (endCommand st ec v s).owned = s.owned := rfl
@[simp] theorem endCommand_devaddr (st ec : Byte) (v : Reading) (s : State) : (endCommand st ec v s).devaddr = s.devaddr := rfl
@[simp] theorem endCommand_seq (st ec : Byte) (v : Reading) (s : State) : (endCommand st ec v s).seq = .idle := rfl
@[simp] theorem endCommand_cmd (st ec : Byte) (v : Reading) (s : State) : (endCommand st ec v s).cmd = s.cmd := rfl
@[simp] theorem endCommand_hi (st ec : Byte) (v : Reading) (s : State) : (endCommand st ec v s).hi = s.hi := rfl
@[simp] theorem endCommand_rsp (st ec : Byte) (v : Reading) (s : State) : (endCommand st ec v s).rsp = packResponse st ec v := rfl
@[simp] theorem endCommand_rspValid (st ec : Byte) (v : Reading) (s : State) : (endCommand st ec v s).rspValid = true := rfl
@[simp] theorem endCommand_req (st ec : Byte) (v : Reading) (s : State) : (endCommand st ec v s).req = none := rfl
@[simp] theorem endCommand_log (st ec : Byte) (v : Reading) (s : State) : (endCommand st ec v s).log = s.log := rfl
@[simp] theorem endCommand_pmode (st ec : Byte) (v : Reading) (s : State) : (endCommand st ec v s).pmode = s.pmode := rfl
@[simp] theorem endCommand_reg (st ec : Byte) (v : Reading) (s : State) : (endCommand st ec v s).reg = s.reg := rfl
@[simp] theorem endCommand_transport (st ec : Byte) (v : Reading) (s : State) : (endCommand st ec v s).transport = s.transport := rfl
@[simp] theorem endCommand_moves (st ec : Byte) (v : Reading) (s : State) : (endCommand st ec v s).moves = s.moves := rfl
@[simp] theorem endCommand_tick (st ec : Byte) (v : Reading) (s : State) : (endCommand st ec v s).tick = s.tick := rfl

@[simp] theorem recordAnswer_owned (q : BusRequest) (r : BusAnswer) (s : State) : (recordAnswer q r s).owned = s.owned := rfl
@[simp] theorem recordAnswer_devaddr (q : BusRequest) (r : BusAnswer) (s : State) : (recordAnswer q r s).devaddr = s.devaddr := rfl
@[simp] theorem recordAnswer_seq (q : BusRequest) (r : BusAnswer) (s : State) : (recordAnswer q r s).seq = s.seq := rfl
@[simp] theorem recordAnswer_cmd (q : BusRequest) (r : BusAnswer) (s : State) : (recordAnswer q r s).cmd = s.cmd := rfl
@[simp] theorem recordAnswer_hi (q : BusRequest) (r : BusAnswer) (s : State) : (recordAnswer q r s).hi = s.hi := rfl
@[simp] theorem recordAnswer_rsp (q : BusRequest) (r : BusAnswer) (s : State) : (recordAnswer q r s).rsp = s.rsp := rfl
@[simp] theorem recordAnswer_rspValid (q : BusRequest) (r : BusAnswer) (s : State) : (recordAnswer q r s).rspValid = s.rspValid := rfl
@[simp] theorem recordAnswer_req (q : BusRequest) (r : BusAnswer) (s : State) : (recordAnswer q r s).req = s.req := rfl
@[simp] theorem recordAnswer_log (q : BusRequest) (r : BusAnswer) (s : State) : (recordAnswer q r s).log = s.log ++ [⟨q, r⟩] := rfl
@[simp] theorem recordAnswer_pmode (q : BusRequest) (r : BusAnswer) (s : State) : (recordAnswer q r s).pmode = sensorMode q r s.pmode := rfl
@[simp] theorem recordAnswer_reg (q : BusRequest) (r : BusAnswer) (s : State) : (recordAnswer q r s).reg = s.reg := rfl
@[simp] theorem recordAnswer_transport (q : BusRequest) (r : BusAnswer) (s : State) : (recordAnswer q r s).transport = s.transport := rfl
@[simp] theorem recordAnswer_moves (q : BusRequest) (r : BusAnswer) (s : State) : (recordAnswer q r s).moves = s.moves := rfl
@[simp] theorem recordAnswer_tick (q : BusRequest) (r : BusAnswer) (s : State) : (recordAnswer q r s).tick = s.tick := rfl

@[simp] theorem respondOk_eq (v : Reading) (s : State) : respondOk v s = endCommand 0x00 0 v s := rfl
@[simp] theorem raiseBusError_eq (e : BusErr) (s : State) : raiseBusError e s = endCommand 0x01 e.code 0 s := rfl
@[simp] theorem raiseIllegal_eq (s : State) : raiseIllegal s = endCommand 0x02 0 0 s := rfl

end Sys2Proof.Machine
end

