-- ==== Sys2Proof/Laws/Environment.lean ====
section
/-!
SUPPORT. What the transport's turn can do (R38, R55, R57, R58): said once, for the lemmas about the meanings to cite.
-/

namespace Sys2Proof.Machine

/-- The unconstrained transport's answers have the interface's shape (R40, D24). -/
theorem oracleAnswer_fits {k : Nat} {q : BusRequest} {r : BusAnswer} (h : oracleAnswer k q = some r) : r.fits q = true := by
  unfold oracleAnswer at h
  split at h
  · split at h <;> cases h <;> simp [BusAnswer.fits]
  · cases h

theorem sensorKnown_wf (q : BusRequest) (r : BusAnswer) {m : Memory} (h : m.wf = true) : (sensorKnown q r m).wf = true := by
  unfold sensorKnown
  split
  · rfl
  · exact Memory.wf_forget _ h
  · exact h
  · exact h

/-- The ideal device: an answer that fits, and registers in canonical form (R58). -/
theorem idealAnswer_spec {d : DevAddr} {q : BusRequest} {m m' : Memory} {k k' : Nat} {r : BusAnswer}
    (h : idealAnswer d q m k = some (r, m', k')) : r.fits q = true ∧ (m.wf = true → m'.wf = true) := by
  unfold idealAnswer at h
  split at h
  · split at h
    · cases h; exact ⟨rfl, Memory.wf_write _ _⟩
    · split at h
      · cases h; exact ⟨rfl, id⟩
      · cases h; exact ⟨rfl, Memory.wf_write _ _⟩
    · cases h
  · cases h; exact ⟨rfl, id⟩

/-- An answer: to the outstanding request, recorded, with nothing of the block changed but the trace. -/
theorem transportTurn_answered {s t : State} {r : BusAnswer} (h : transportTurn s = .answered r t) :
    ∃ q tr m k, s.req = some q ∧ t = recordAnswer q r { s with transport := tr, reg := m, tick := k } ∧
      (s.reg.wf = true → m.wf = true) ∧ ((∀ script, s.transport ≠ .scripted script) → r.fits q = true) := by
  unfold transportTurn at h
  split at h
  · cases h
  · rename_i q hq
    split at h
    · rename_i ho
      split at h
      · cases h
      · rename_i ha
        cases h
        exact ⟨q, .oracle, _, _, hq, by rw [← ho], sensorKnown_wf q r, fun _ => oracleAnswer_fits ha⟩
    · cases h
    · rename_i hs
      cases h
      exact ⟨q, _, _, s.tick, hq, rfl, sensorKnown_wf q r, fun hn => absurd hs (hn _)⟩
    · rename_i d hi
      split at h
      · rename_i ha
        cases h
        exact ⟨q, .ideal d, _, _, hq, by rw [← hi], (idealAnswer_spec ha).2, fun _ => (idealAnswer_spec ha).1⟩
      · cases h

/-- Silence: only the unconstrained transport is silent, and only its counter moves (R112). -/
theorem transportTurn_silent {s t : State} (h : transportTurn s = .silent t) :
    s.transport = .oracle ∧ s.req.isSome = true ∧ t = { s with tick := s.tick + 1 } := by
  unfold transportTurn at h
  split at h
  · cases h
  · rename_i hq
    split at h
    · rename_i ho
      split at h <;> cases h
      exact ⟨ho, by simp [hq], rfl⟩
    · cases h
    · cases h
    · split at h <;> cases h

/-- The scripted mock bus answers with the head of its script (R57). -/
theorem transportTurn_scripted {s : State} {q : BusRequest} {r : BusAnswer} {rest : List BusAnswer} (hq : s.req = some q)
    (ht : s.transport = .scripted (r :: rest)) :
    transportTurn s =
      .answered r (recordAnswer q r { s with transport := .scripted rest, reg := sensorKnown q r s.reg }) := by
  simp [transportTurn, hq, ht]

/-- The ideal device answers at `dev0` from its registers (R58). -/
theorem transportTurn_ideal {s : State} {q : BusRequest} {dev₀ : DevAddr} {r : BusAnswer} {m : Memory} {k : Nat}
    (hq : s.req = some q) (ht : s.transport = .ideal dev₀) (ha : idealAnswer dev₀ q s.reg s.tick = some (r, m, k)) :
    transportTurn s = .answered r (recordAnswer q r { s with reg := m, tick := k }) := by
  simp [transportTurn, hq, ht, ha]

/-- There is no request to answer exactly when none is outstanding (R34). -/
theorem transportTurn_noRequest {s : State} (h : transportTurn s = .noRequest) : s.req = none := by
  unfold transportTurn at h
  split at h
  · assumption
  · split at h
    · split at h <;> cases h
    · cases h
    · cases h
    · split at h <;> cases h

/-- The unconstrained transport never refuses (R55). -/
theorem transportTurn_oracle_not_refused {s : State} (ho : s.transport = .oracle) (why : Refusal) :
    transportTurn s ≠ .refused why := by
  intro h
  unfold transportTurn at h
  split at h
  · cases h
  · simp only [ho] at h
    split at h <;> cases h

/-- What waiting can come to (R12, R19). -/
theorem await_next {s u : State} {k : List Byte → State → Outcome} (h : await s k = .next u) :
    transportTurn s = .silent u ∨
    (∃ e t, transportTurn s = .answered (.err e) t ∧ u = raiseBusError e t) ∨
    (∃ data t, transportTurn s = .answered (.ok data) t ∧ k data t = .next u) := by
  unfold await at h
  split at h
  · exact .inr (.inr ⟨_, _, ‹_›, h⟩)
  · cases h; exact .inr (.inl ⟨_, _, ‹_›, rfl⟩)
  · cases h; exact .inl ‹_›
  · cases h
  · cases h

@[simp] theorem await_ok {s t : State} {data : List Byte} {k : List Byte → State → Outcome}
    (h : transportTurn s = .answered (.ok data) t) : await s k = k data t := by simp [await, h]

@[simp] theorem await_err {s t : State} {e : BusErr} {k : List Byte → State → Outcome}
    (h : transportTurn s = .answered (.err e) t) : await s k = .next (raiseBusError e t) := by simp [await, h]

@[simp] theorem await_silent {s t : State} {k : List Byte → State → Outcome}
    (h : transportTurn s = .silent t) : await s k = .next t := by simp [await, h]

end Sys2Proof.Machine
end

