-- ==== Sys2Proof/Laws/Exec.lean ====
section
/-!
SUPPORT. Everything a command's meaning can do when it answers a next state, said once (R19, R59, R101, R104, R135), and from it
everything a step can do.
-/

namespace Sys2Proof.Machine

/-- What a command does when it is accepted in `IDLE` (R59, R81, R91, R92, R104). -/
inductive Accepted (i : Instr) (s : State) : State → Prop where
  | illegal : (s.owned = true ∧ ∃ ad, i = .new ad) ∨ (s.owned = false ∧ ∀ ad, i ≠ .new ad) → Accepted i s (raiseIllegal s)
  | constructed (ad : AddrSelect) : i = .new ad → s.owned = false →
      Accepted i s (respondOk 0 { s with owned := true, devaddr := deviceAddress ad })
  | released : i = .drop → s.owned = true → Accepted i s (respondOk 0 { s with owned := false })
  | issued (q : BusRequest) : (i.transactions s.devaddr)[0]? = some q → s.owned = true →
      Accepted i s (issue q .xfer1 (latchCommand (encode i) s))

/-- What a command does while it waits (R19, R101, R135). -/
inductive Continued (i : Instr) (s : State) : State → Prop where
  | held (q : BusRequest) (t : State) : (i.transactions s.devaddr)[s.seq.index]? = some q → transportTurn s = .silent t →
      Continued i s t
  | failed (q : BusRequest) (e : BusErr) (t : State) : (i.transactions s.devaddr)[s.seq.index]? = some q →
      transportTurn s = .answered (.err e) t → Continued i s (raiseBusError e t)
  | finished (q : BusRequest) (data : List Byte) (t : State) (v : Reading) :
      (i.transactions s.devaddr)[s.seq.index]? = some q → (i.transactions s.devaddr).length = s.seq.index + 1 →
      transportTurn s = .answered (.ok data) t → data.length = q.readCount → Continued i s (respondOk v t)
  | second (q₁ q₂ : BusRequest) (u : Byte) (t : State) : s.seq = .xfer1 → i.transactions s.devaddr = [q₁, q₂] →
      q₁.readCount = 1 → transportTurn s = .answered (.ok [u]) t → Continued i s (issue q₂ .xfer2 { t with hi := u })

theorem transportTurn_answered_devaddr {s t : State} {r : BusAnswer} (h : transportTurn s = .answered r t) :
    t.devaddr = s.devaddr := by
  obtain ⟨q, tr, m, k, -, rfl, -, -⟩ := transportTurn_answered h
  rfl

theorem acceptTransfer_next {i : Instr} {q : BusRequest} {s u : State}
    (hq : (i.transactions s.devaddr)[0]? = some q) (h : acceptTransfer (encode i) q s = .next u) : Accepted i s u := by
  unfold acceptTransfer at h
  split at h
  · cases h; exact .issued q hq ‹_›
  · cases h
    exact .illegal (.inr ⟨Bool.eq_false_iff.mpr ‹_›, fun ad hn => by simp [hn, Instr.transactions] at hq⟩)

theorem runWrite_next {i : Instr} {reg : RegAddr} {value : Byte} {s u : State}
    (hi : ∀ d, i.transactions d = [memWrite d reg value]) (h : runWrite (encode i) reg value s = .next u) :
    (s.seq = .idle ∧ Accepted i s u) ∨ (s.seq ≠ .idle ∧ Continued i s u) := by
  unfold runWrite at h
  split at h
  · rename_i hs
    exact .inl ⟨hs, acceptTransfer_next (by simp [hi]) h⟩
  · rename_i hs
    refine .inr ⟨by simp [hs], ?_⟩
    obtain h | ⟨e, t, ht, rfl⟩ | ⟨data, t, ht, h⟩ := await_next h
    · exact .held (memWrite s.devaddr reg value) _ (by simp [hi, hs, Phase.index]) h
    · exact .failed (memWrite s.devaddr reg value) e t (by simp [hi, hs, Phase.index]) ht
    · split at h
      · cases h
        exact .finished (memWrite s.devaddr reg value) [] t 0 (by simp [hi, hs, Phase.index])
          (by simp [hi, hs, Phase.index]) ht rfl
      · cases h
  · cases h

theorem runRead_next {i : Instr} {reg : RegAddr} {s u : State}
    (hi : ∀ d, i.transactions d = [memRead d reg]) (h : runRead (encode i) reg s = .next u) :
    (s.seq = .idle ∧ Accepted i s u) ∨ (s.seq ≠ .idle ∧ Continued i s u) := by
  unfold runRead at h
  split at h
  · rename_i hs
    exact .inl ⟨hs, acceptTransfer_next (by simp [hi]) h⟩
  · rename_i hs
    refine .inr ⟨by simp [hs], ?_⟩
    obtain h | ⟨e, t, ht, rfl⟩ | ⟨data, t, ht, h⟩ := await_next h
    · exact .held (memRead s.devaddr reg) _ (by simp [hi, hs, Phase.index]) h
    · exact .failed (memRead s.devaddr reg) e t (by simp [hi, hs, Phase.index]) ht
    · split at h
      · rename_i d
        cases h
        exact .finished (memRead s.devaddr reg) [d] t _ (by simp [hi, hs, Phase.index])
          (by simp [hi, hs, Phase.index]) ht rfl
      · cases h
  · cases h

theorem runComposedRead_next {i : Instr} {upper lower : RegAddr} {s u : State}
    (hi : ∀ d, i.transactions d = [memRead d upper, memRead d lower])
    (h : runComposedRead (encode i) upper lower s = .next u) :
    (s.seq = .idle ∧ Accepted i s u) ∨ (s.seq ≠ .idle ∧ Continued i s u) := by
  unfold runComposedRead at h
  split at h
  · rename_i hs
    exact .inl ⟨hs, acceptTransfer_next (by simp [hi]) h⟩
  · rename_i hs
    refine .inr ⟨by simp [hs], ?_⟩
    obtain h | ⟨e, t, ht, rfl⟩ | ⟨data, t, ht, h⟩ := await_next h
    · exact .held (memRead s.devaddr upper) _ (by simp [hi, hs, Phase.index]) h
    · exact .failed (memRead s.devaddr upper) e t (by simp [hi, hs, Phase.index]) ht
    · split at h
      · rename_i b
        cases h
        have hd : memRead t.devaddr lower = memRead s.devaddr lower := by rw [transportTurn_answered_devaddr ht]
        rw [hd]
        exact .second _ (memRead s.devaddr lower) b t hs (hi _) rfl ht
      · cases h
  · rename_i hs
    refine .inr ⟨by simp [hs], ?_⟩
    obtain h | ⟨e, t, ht, rfl⟩ | ⟨data, t, ht, h⟩ := await_next h
    · exact .held (memRead s.devaddr lower) _ (by simp [hi, hs, Phase.index]) h
    · exact .failed (memRead s.devaddr lower) e t (by simp [hi, hs, Phase.index]) ht
    · split at h
      · rename_i b
        cases h
        exact .finished (memRead s.devaddr lower) [b] t _ (by simp [hi, hs, Phase.index])
          (by simp [hi, hs, Phase.index]) ht rfl
      · cases h

/-- Everything a meaning can do when it answers a next state. -/
theorem exec_next {i : Instr} {s u : State} (h : exec i s = .next u) :
    (s.seq = .idle ∧ Accepted i s u) ∨ (s.seq ≠ .idle ∧ Continued i s u) := by
  cases i with
  | new ad =>
    simp only [exec, execNew] at h
    split at h
    · split at h
      · cases h; exact .inl ⟨‹_›, .illegal (.inl ⟨‹_›, ad, rfl⟩)⟩
      · cases h; exact .inl ⟨‹_›, .constructed ad rfl (Bool.eq_false_iff.mpr ‹_›)⟩
    · cases h
    · cases h
  | drop =>
    simp only [exec, execDrop] at h
    split at h
    · split at h
      · cases h; exact .inl ⟨‹_›, .released rfl ‹_›⟩
      · cases h
        exact .inl ⟨‹_›, .illegal (.inr ⟨Bool.eq_false_iff.mpr ‹_›, fun _ hn => by cases hn⟩)⟩
    · cases h
    · cases h
  | writeRegister reg value => exact runWrite_next (fun _ => rfl) h
  | readRegister reg => exact runRead_next (fun _ => rfl) h
  | readRegisterAsU16 upper lower => exact runComposedRead_next (fun _ => rfl) h
  | setAccelLowNoiseMode => exact runWrite_next (fun _ => rfl) h
  | readAccelX => exact runComposedRead_next (fun _ => rfl) h
  | readAccelY => exact runComposedRead_next (fun _ => rfl) h
  | readAccelZ => exact runComposedRead_next (fun _ => rfl) h

/-- How a command waits for the answer to its transaction `q` in the sequencer's phase, and goes on with the bytes: those of
another number are refused; those of the last transaction end the command with a value that depends on them and on `HI` alone; the
byte of the first of two goes to `HI` and the second is issued (R19, R135). -/
def WaitsFor (i : Instr) (s : State) (q : BusRequest) : Prop :=
  ∃ k : List Byte → State → Outcome,
    (∀ s' : State, s'.seq = s.seq → exec i s' = await s' k) ∧
    (∀ data t, data.length ≠ q.readCount → k data t = .refused .answerShape) ∧
    ((i.transactions s.devaddr).length = s.seq.index + 1 → ∀ data, data.length = q.readCount →
      ∃ v : Byte → Reading, ∀ t, k data t = .next (respondOk (v t.hi) t)) ∧
    (∀ q₂, s.seq = .xfer1 → (i.transactions s.devaddr)[1]? = some q₂ →
      q.readCount = 1 ∧ ∀ u t, t.devaddr = s.devaddr → k [u] t = .next (issue q₂ .xfer2 { t with hi := u }))

theorem runWrite_waits {i : Instr} {s : State} {q : BusRequest} {w : CommandWord} {reg : RegAddr} {value : Byte} (hs : s.seq ≠ .idle)
    (hq : (i.transactions s.devaddr)[s.seq.index]? = some q) (he : exec i = runWrite w reg value)
    (hi : ∀ d, i.transactions d = [memWrite d reg value]) : WaitsFor i s q := by
  cases hp : s.seq with
  | idle => exact absurd hp hs
  | xfer2 => simp [hi, hp, Phase.index] at hq
  | xfer1 =>
    simp [hi, hp, Phase.index] at hq
    subst hq
    refine ⟨_, fun s' h' => by rw [he, runWrite, h', hp], ?_, ?_, ?_⟩
    · intro data t hd
      cases data with
      | nil => exact absurd rfl hd
      | cons => rfl
    · intro _ data hd
      obtain rfl : data = [] := List.length_eq_zero_iff.mp hd
      exact ⟨fun _ => 0, fun _ => rfl⟩
    · intro q₂ _ h₂
      simp [hi] at h₂

theorem runRead_waits {i : Instr} {s : State} {q : BusRequest} {w : CommandWord} {reg : RegAddr} (hs : s.seq ≠ .idle)
    (hq : (i.transactions s.devaddr)[s.seq.index]? = some q) (he : exec i = runRead w reg)
    (hi : ∀ d, i.transactions d = [memRead d reg]) : WaitsFor i s q := by
  cases hp : s.seq with
  | idle => exact absurd hp hs
  | xfer2 => simp [hi, hp, Phase.index] at hq
  | xfer1 =>
    simp [hi, hp, Phase.index] at hq
    subst hq
    refine ⟨_, fun s' h' => by rw [he, runRead, h', hp], ?_, ?_, ?_⟩
    · intro data t hd
      match data with
      | [] => rfl
      | [d] => exact absurd rfl hd
      | _ :: _ :: _ => rfl
    · intro _ data hd
      obtain ⟨d, rfl⟩ := List.length_eq_one_iff.mp hd
      exact ⟨fun _ => byteResult d, fun _ => rfl⟩
    · intro q₂ _ h₂
      simp [hi] at h₂

theorem runComposedRead_waits {i : Instr} {s : State} {q : BusRequest} {w : CommandWord} {upper lower : RegAddr} (hs : s.seq ≠ .idle)
    (hq : (i.transactions s.devaddr)[s.seq.index]? = some q) (he : exec i = runComposedRead w upper lower)
    (hi : ∀ d, i.transactions d = [memRead d upper, memRead d lower]) : WaitsFor i s q := by
  cases hp : s.seq with
  | idle => exact absurd hp hs
  | xfer1 =>
    simp [hi, hp, Phase.index] at hq
    subst hq
    refine ⟨_, fun s' h' => by rw [he, runComposedRead, h', hp], ?_, ?_, ?_⟩
    · intro data t hd
      match data with
      | [] => rfl
      | [d] => exact absurd rfl hd
      | _ :: _ :: _ => rfl
    · intro h
      simp [hi, hp, Phase.index] at h
    · intro q₂ _ h₂
      simp [hi] at h₂
      subst h₂
      exact ⟨rfl, fun u t ht => by rw [← ht]⟩
  | xfer2 =>
    simp [hi, hp, Phase.index] at hq
    subst hq
    refine ⟨_, fun s' h' => by rw [he, runComposedRead, h', hp], ?_, ?_, ?_⟩
    · intro data t hd
      match data with
      | [] => rfl
      | [d] => exact absurd rfl hd
      | _ :: _ :: _ => rfl
    · intro _ data hd
      obtain ⟨d, rfl⟩ := List.length_eq_one_iff.mp hd
      exact ⟨fun h => compose h d, fun _ => rfl⟩
    · intro q₂ h'
      simp [hp] at h'

/-- A command that has a transaction in the sequencer's phase waits for its answer there. -/
theorem exec_waits {i : Instr} {s : State} {q : BusRequest} (hs : s.seq ≠ .idle)
    (hq : (i.transactions s.devaddr)[s.seq.index]? = some q) : WaitsFor i s q := by
  cases i with
  | new ad => simp [Instr.transactions] at hq
  | drop => simp [Instr.transactions] at hq
  | writeRegister reg value => exact runWrite_waits hs hq rfl fun _ => rfl
  | readRegister reg => exact runRead_waits hs hq rfl fun _ => rfl
  | readRegisterAsU16 upper lower => exact runComposedRead_waits hs hq rfl fun _ => rfl
  | setAccelLowNoiseMode => exact runWrite_waits hs hq rfl fun _ => rfl
  | readAccelX => exact runComposedRead_waits hs hq rfl fun _ => rfl
  | readAccelY => exact runComposedRead_waits hs hq rfl fun _ => rfl
  | readAccelZ => exact runComposedRead_waits hs hq rfl fun _ => rfl

/-- Acceptance of a command with transactions while a handle exists (R81). -/
theorem exec_accepts {i : Instr} {s : State} {q : BusRequest} (hs : s.seq = .idle) (ho : s.owned = true)
    (hq : (i.transactions s.devaddr)[0]? = some q) :
    exec i s = .next (issue q .xfer1 (latchCommand (encode i) s)) := by
  cases i with
  | new ad => simp [Instr.transactions] at hq
  | drop => simp [Instr.transactions] at hq
  | writeRegister reg value => cases hq; simp [exec, execWriteRegister, runWrite, hs, acceptTransfer, ho, memWrite]
  | readRegister reg => cases hq; simp [exec, execReadRegister, runRead, hs, acceptTransfer, ho, memRead]
  | readRegisterAsU16 upper lower =>
    cases hq; simp [exec, execReadRegisterAsU16, runComposedRead, hs, acceptTransfer, ho, memRead]
  | setAccelLowNoiseMode =>
    cases hq
    simp [exec, execSetAccelLowNoiseMode, runWrite, hs, acceptTransfer, ho, memWrite, pwrMgmt, pmLowNoise]
  | readAccelX => cases hq; simp [exec, execReadAccelX, runComposedRead, hs, acceptTransfer, ho, memRead, accelXHi]
  | readAccelY => cases hq; simp [exec, execReadAccelY, runComposedRead, hs, acceptTransfer, ho, memRead, accelYHi]
  | readAccelZ => cases hq; simp [exec, execReadAccelZ, runComposedRead, hs, acceptTransfer, ho, memRead, accelZHi]

/-- What the sequencer's turn can do (R18, R19): nothing in `IDLE`, the latched command's own step otherwise. -/
theorem sequencerTurn_next {s u : State} (h : sequencerTurn s = .next u) :
    (s.seq = .idle ∧ u = s) ∨ (s.seq ≠ .idle ∧ ∃ i, decode s.cmd = .ok i ∧ Continued i s u) := by
  unfold sequencerTurn at h
  split at h
  · cases h; exact .inl ⟨‹_›, rfl⟩
  all_goals
    rename_i hs
    split at h
    · rename_i i hi
      obtain ⟨h1, -⟩ | ⟨h1, h2⟩ := exec_next h
      · simp [hs] at h1
      · exact .inr ⟨h1, i, hi, h2⟩
    · cases h

/-- What acceptance of a word at the ready port can do (R59, R70, R104). -/
theorem acceptWord_next {w : CommandWord} {s u : State} (hs : s.seq = .idle) (h : acceptWord w s = .next u) :
    (∃ e, decode w = .error e ∧ u = raiseIllegal s) ∨ (∃ i, decode w = .ok i ∧ Accepted i s u) := by
  unfold acceptWord at h
  split at h
  · rename_i i hi
    obtain ⟨-, h1⟩ | ⟨h1, -⟩ := exec_next h
    · exact .inr ⟨i, hi, h1⟩
    · exact absurd hs h1
  · cases h; exact .inl ⟨_, ‹_›, rfl⟩

/-- The state in which the block acts: the move that has its turn is taken from the list, a word it is not ready for is left. -/
def State.atTurn (s : State) : State :=
  match s.moves with
  | [] => s
  | .present w :: rest => if s.ready then { s with moves := rest } else { s with moves := .present w :: rest }
  | _ :: rest => { s with moves := rest }

/-- Everything a step can do. -/
inductive Stepped (s : State) : State → Prop where
  | idled : s.seq = .idle → Stepped s s.atTurn
  | continued (i : Instr) (u : State) : s.seq ≠ .idle → decode s.cmd = .ok i → Continued i s.atTurn u → Stepped s u
  | illegalWord (w : CommandWord) (rest : List Move) (e : DecodeError) : s.seq = .idle → s.moves = .present w :: rest →
      decode w = .error e → Stepped s (raiseIllegal s.atTurn)
  | accepted (w : CommandWord) (rest : List Move) (i : Instr) (u : State) : s.seq = .idle → s.moves = .present w :: rest →
      decode w = .ok i → Accepted i s.atTurn u → Stepped s u
  | reset (rest : List Move) : s.moves = .hostReset :: rest → Stepped s (resetBlock s.atTurn)
  | sampled (cells : List (RegAddr × Byte)) (rest : List Move) : s.moves = .sample cells :: rest →
      Stepped s { s.atTurn with reg := s.reg.writeAll cells }
  | poweredOn (rest : List Move) : s.moves = .sensorPowerOn :: rest → Stepped s { s.atTurn with pmode := .idle, reg := [] }

theorem atTurn_eq (s : State) : s.atTurn = { s with moves := s.atTurn.moves } := by
  unfold State.atTurn
  split
  · rfl
  · split <;> rfl
  · rfl

@[simp] theorem atTurn_owned (s : State) : s.atTurn.owned = s.owned := by rw [atTurn_eq]
@[simp] theorem atTurn_devaddr (s : State) : s.atTurn.devaddr = s.devaddr := by rw [atTurn_eq]
@[simp] theorem atTurn_seq (s : State) : s.atTurn.seq = s.seq := by rw [atTurn_eq]
@[simp] theorem atTurn_cmd (s : State) : s.atTurn.cmd = s.cmd := by rw [atTurn_eq]
@[simp] theorem atTurn_hi (s : State) : s.atTurn.hi = s.hi := by rw [atTurn_eq]
@[simp] theorem atTurn_rsp (s : State) : s.atTurn.rsp = s.rsp := by rw [atTurn_eq]
@[simp] theorem atTurn_rspValid (s : State) : s.atTurn.rspValid = s.rspValid := by rw [atTurn_eq]
@[simp] theorem atTurn_req (s : State) : s.atTurn.req = s.req := by rw [atTurn_eq]
@[simp] theorem atTurn_log (s : State) : s.atTurn.log = s.log := by rw [atTurn_eq]
@[simp] theorem atTurn_pmode (s : State) : s.atTurn.pmode = s.pmode := by rw [atTurn_eq]
@[simp] theorem atTurn_reg (s : State) : s.atTurn.reg = s.reg := by rw [atTurn_eq]
@[simp] theorem atTurn_transport (s : State) : s.atTurn.transport = s.transport := by rw [atTurn_eq]
@[simp] theorem atTurn_tick (s : State) : s.atTurn.tick = s.tick := by rw [atTurn_eq]

/-- The inversion of the step. -/
theorem step_next {s u : State} (h : step s = .next u) : Stepped s u := by
  unfold step nextMove at h
  split at h
  · rename_i hm
    have ha : s.atTurn = s := by simp [State.atTurn, hm]
    obtain ⟨h1, rfl⟩ | ⟨h1, i, h2, h3⟩ := sequencerTurn_next h
    · simpa only [ha] using Stepped.idled (s := u) h1
    · exact .continued i u h1 h2 (by rwa [ha])
  · rename_i w rest hm
    split at h
    · rename_i hr
      have hs : s.seq = .idle := by simpa [State.ready] using hr
      have ha : s.atTurn = { s with moves := rest } := by simp [State.atTurn, hm, hr]
      obtain ⟨e, h1, rfl⟩ | ⟨i, h1, h2⟩ := acceptWord_next (by exact hs) h
      · rw [← ha]; exact .illegalWord w rest e hs hm h1
      · exact .accepted w rest i u hs hm h1 (by rwa [ha])
    · rename_i hr
      have ha : s.atTurn = s := by simp [State.atTurn, hm, hr]; rw [← hm]
      obtain ⟨h1, rfl⟩ | ⟨h1, i, h2, h3⟩ := sequencerTurn_next h
      · simp [State.ready, h1] at hr
      · exact .continued i u h1 h2 (by rwa [ha])
  · rename_i rest hm
    have ha : s.atTurn = { s with moves := rest } := by simp [State.atTurn, hm]
    cases h; rw [← ha]; exact .reset rest hm
  · rename_i rest hm
    have ha : s.atTurn = { s with moves := rest } := by simp [State.atTurn, hm]
    rw [← ha] at h
    obtain ⟨h1, rfl⟩ | ⟨h1, i, h2, h3⟩ := sequencerTurn_next h
    · exact .idled (by simpa using h1)
    · exact .continued i u (by simpa using h1) (by simpa using h2) h3
  · rename_i cells rest hm
    have ha : s.atTurn = { s with moves := rest } := by simp [State.atTurn, hm]
    cases h
    have := Stepped.sampled (s := s) cells rest hm
    rwa [ha] at this
  · rename_i rest hm
    have ha : s.atTurn = { s with moves := rest } := by simp [State.atTurn, hm]
    cases h
    have := Stepped.poweredOn (s := s) rest hm
    rwa [ha] at this

/-! ## Runs -/

@[simp] theorem run_zero (s : State) : run 0 s = .next s := rfl

theorem run_next {s t : State} (n : Nat) (h : step s = .next t) : run (n + 1) s = run n t := by simp only [run, h]

/-- One step of a run of the host's interface. -/
theorem coreRun_succ (M : Host.Core) (n : Nat) (s : M.State) :
    M.run (n + 1) s = match M.step s with
      | .next t => M.run n t
      | .fault r => .fault r
      | .refused r => .refused r := rfl

/-- The runs of the host's interface are these. -/
theorem run_eq_core_run (n : Nat) (s : State) : run n s = Host.Core.run Sys2Proof.core n s := by
  induction n generalizing s with
  | zero => rfl
  | succ n ih =>
    refine Eq.trans ?_ (coreRun_succ Sys2Proof.core n s).symm
    have hs : Sys2Proof.core.step s = step s := rfl
    rw [run, hs]
    cases step s with
    | next t => exact ih t
    | fault r => rfl
    | refused r => rfl

/-! ## The steps of a command -/

/-- Acceptance of a command with transactions, as a step (R59, R81). -/
theorem step_present {i : Instr} {s : State} {w : CommandWord} {q : BusRequest} {rest : List Move} (hs : s.seq = .idle)
    (ho : s.owned = true) (hq : (i.transactions s.devaddr)[0]? = some q) (hd : decode w = .ok i)
    (hm : s.moves = .present w :: rest) :
    step s = .next (issue q .xfer1 (latchCommand (encode i) { s with moves := rest })) := by
  have hr : s.ready = true := by simp [State.ready, hs]
  simp only [step, nextMove, hm, hr, if_true, acceptWord, hd]
  exact exec_accepts hs ho hq

/-- The transport's turn while a command waits, as a step (R18, R19). -/
theorem step_transport {i : Instr} {s : State} {rest : List Move} (hs : s.seq ≠ .idle) (hd : decode s.cmd = .ok i)
    (hm : s.moves = .transport :: rest) : step s = exec i { s with moves := rest } := by
  simp only [step, nextMove, hm, sequencerTurn, hd]
  split
  · exact absurd ‹_› hs
  · rfl
  · rfl

/-- An error answer ends a waiting command (R101). -/
theorem exec_error {i : Instr} {s t : State} {q : BusRequest} {e : BusErr} (hs : s.seq ≠ .idle)
    (hq : (i.transactions s.devaddr)[s.seq.index]? = some q) (ht : transportTurn s = .answered (.err e) t) :
    exec i s = .next (raiseBusError e t) := by
  obtain ⟨k, hk, -⟩ := exec_waits hs hq
  rw [hk s rfl, await_err ht]

end Sys2Proof.Machine
end

