-- ==== Sys2Proof/Laws/PerInstr.lean ====
section
/-!
SUPPORT. Statements about every instruction as syntax, one lemma per constructor: `WordFields`, the fields of each command's word
(R62, R68) and that every command is well-formed (R83).
-/

/-- The word of a command has the command's opcode in bits 23 to 16 and its operands in the fields its format names, and nothing
else; every command is well-formed. -/
def Sys2Proof.Laws.WordFields.Statement (i : Sys2Proof.Instr) : Prop :=
  i.fieldsAre (Sys2Proof.opField (Sys2Proof.encode i)) (Sys2Proof.aField (Sys2Proof.encode i))
    (Sys2Proof.bField (Sys2Proof.encode i)) ∧ i.wellFormed = true

namespace Sys2Proof.Laws.WordFields

theorem new (ad : AddrSelect) : Statement (.new ad) := by simp [Statement, Instr.fieldsAre, encode, Instr.opcode, Instr.wellFormed]
theorem drop : Statement .drop := by simp [Statement, Instr.fieldsAre, encode, Instr.opcode, Instr.wellFormed]
theorem writeRegister (reg : RegAddr) (value : Byte) : Statement (.writeRegister reg value) := by
  simp [Statement, Instr.fieldsAre, encode, Instr.opcode, Instr.wellFormed]
theorem readRegister (reg : RegAddr) : Statement (.readRegister reg) := by
  simp [Statement, Instr.fieldsAre, encode, Instr.opcode, Instr.wellFormed]
theorem readRegisterAsU16 (upper lower : RegAddr) : Statement (.readRegisterAsU16 upper lower) := by
  simp [Statement, Instr.fieldsAre, encode, Instr.opcode, Instr.wellFormed]
theorem setAccelLowNoiseMode : Statement .setAccelLowNoiseMode := by
  simp [Statement, Instr.fieldsAre, encode, Instr.opcode, Instr.wellFormed]
theorem readAccelX : Statement .readAccelX := by simp [Statement, Instr.fieldsAre, encode, Instr.opcode, Instr.wellFormed]
theorem readAccelY : Statement .readAccelY := by simp [Statement, Instr.fieldsAre, encode, Instr.opcode, Instr.wellFormed]
theorem readAccelZ : Statement .readAccelZ := by simp [Statement, Instr.fieldsAre, encode, Instr.opcode, Instr.wellFormed]

end Sys2Proof.Laws.WordFields
end

