-- ==== Sys2Proof/Laws/Run.lean ====
section
/-!
SUPPORT. What the steps of a command come to, field by field, so that a run of several steps is followed without unfolding a state;
and what the invariant says of a busy and of an idle block.
-/

namespace Sys2Proof.Machine

/-! ## The response words (R63, R65) -/

theorem packResponse_byteResult (d : Byte) : packResponse 0x00 0 (byteResult d) = (0x000000#24 ++ d : BitVec 32) := by
  revert d; decide +kernel

theorem packResponse_compose (u l : Byte) : packResponse 0x00 0 (compose u l) = (0x0000#16 ++ u ++ l : BitVec 32) := by
  rw [compose_eq_append]
  apply BitVec.eq_of_getLsbD_eq
  intro i hi
  rw [packResponse_bit]
  simp only [BitVec.getLsbD_append]
  grind

theorem packResponse_error (c : Byte) : packResponse 0x01 c 0 = (0x01#8 ++ c ++ 0x0000#16 : BitVec 32) := by
  revert c; decide +kernel

/-! ## The phases of a composed read (R85, R87) -/

/-- The first byte goes to `HI`, and the second request is issued. -/
theorem exec_first {i : Instr} {s t : State} {q₁ q₂ : BusRequest} {u : Byte} (hi : i.transactions s.devaddr = [q₁, q₂])
    (hs : s.seq = .xfer1) (ht : transportTurn s = .answered (.ok [u]) t) :
    exec i s = .next (issue q₂ .xfer2 { t with hi := u }) := by
  obtain ⟨k, hk, -, -, h₂⟩ := exec_waits (i := i) (s := s) (q := q₁) (by simp [hs]) (by simp [hs, Phase.index, hi])
  rw [hk s rfl, await_ok ht]
  exact (h₂ q₂ hs (by simp [hi])).2 u t (transportTurn_answered_devaddr ht)

/-- The second byte ends the command with the composed value. -/
theorem exec_second {i : Instr} {s t : State} {q₁ q₂ : BusRequest} {l : Byte} (hi : i.transactions s.devaddr = [q₁, q₂])
    (hs : s.seq = .xfer2) (ht : transportTurn s = .answered (.ok [l]) t) :
    exec i s = .next (respondOk (compose t.hi l) t) := by
  have key : ∀ w upper lower, exec i = runComposedRead w upper lower → exec i s = .next (respondOk (compose t.hi l) t) := by
    intro w upper lower he
    rw [he, runComposedRead, hs]
    simp only [await_ok ht]
  cases i with
  | readRegisterAsU16 upper lower => exact key _ _ _ rfl
  | readAccelX => exact key _ _ _ rfl
  | readAccelY => exact key _ _ _ rfl
  | readAccelZ => exact key _ _ _ rfl
  | new ad => cases hi
  | drop => cases hi
  | writeRegister reg value => cases hi
  | readRegister reg => cases hi
  | setAccelLowNoiseMode => cases hi

/-! ## The steps, field by field -/

/-- The acceptance of a command with transactions. -/
theorem step_present_fields {i : Instr} {s : State} {w : CommandWord} {q : BusRequest} {rest : List Move} (hs : s.seq = .idle)
    (ho : s.owned = true) (hq : (i.transactions s.devaddr)[0]? = some q) (hd : decode w = .ok i)
    (hm : s.moves = .present w :: rest) :
    ∃ t, step s = .next t ∧ t.seq = .xfer1 ∧ t.req = some q ∧ t.cmd = encode i ∧ t.owned = true ∧ t.devaddr = s.devaddr ∧
      t.hi = s.hi ∧ t.log = s.log ∧ t.transport = s.transport ∧ t.reg = s.reg ∧ t.moves = rest :=
  ⟨_, step_present hs ho hq hd hm, rfl, rfl, rfl, ho, rfl, rfl, rfl, rfl, rfl, rfl⟩

/-- The transport's turn: the command goes on in a state whose move is taken. -/
theorem step_transport_fields {i : Instr} {s : State} {rest : List Move} (hs : s.seq ≠ .idle) (hd : decode s.cmd = .ok i)
    (hm : s.moves = .transport :: rest) :
    ∃ t, step s = exec i t ∧ t.seq = s.seq ∧ t.req = s.req ∧ t.cmd = s.cmd ∧ t.owned = s.owned ∧ t.devaddr = s.devaddr ∧
      t.hi = s.hi ∧ t.log = s.log ∧ t.transport = s.transport ∧ t.reg = s.reg ∧ t.moves = rest :=
  ⟨_, step_transport hs hd hm, rfl, rfl, rfl, rfl, rfl, rfl, rfl, rfl, rfl, rfl⟩

/-- The sensor's sample. -/
theorem step_sample_fields {s : State} {cells : List (RegAddr × Byte)} {rest : List Move} (hm : s.moves = .sample cells :: rest) :
    ∃ t, step s = .next t ∧ t.seq = s.seq ∧ t.req = s.req ∧ t.cmd = s.cmd ∧ t.owned = s.owned ∧ t.devaddr = s.devaddr ∧
      t.hi = s.hi ∧ t.rsp = s.rsp ∧ t.rspValid = s.rspValid ∧ t.log = s.log ∧ t.transport = s.transport ∧
      t.reg = s.reg.writeAll cells ∧ t.moves = rest :=
  ⟨{ s with moves := rest, reg := s.reg.writeAll cells }, by simp [step, nextMove, hm], by simp⟩

/-- The scripted mock bus answers. -/
theorem transportTurn_scripted_fields {s : State} {q : BusRequest} {r : BusAnswer} {script : List BusAnswer}
    (hq : s.req = some q) (ht : s.transport = .scripted (r :: script)) :
    ∃ t, transportTurn s = .answered r t ∧ t.seq = s.seq ∧ t.req = some q ∧ t.cmd = s.cmd ∧ t.owned = s.owned ∧
      t.devaddr = s.devaddr ∧ t.hi = s.hi ∧ t.log = s.log ++ [⟨q, r⟩] ∧ t.transport = .scripted script ∧ t.moves = s.moves :=
  ⟨_, transportTurn_scripted hq ht, rfl, hq, rfl, rfl, rfl, rfl, rfl, rfl, rfl⟩

/-- The ideal device answers a read of a register whose byte is known. -/
theorem transportTurn_ideal_fields {s : State} {dev₀ : DevAddr} {a : RegAddr} {v : Byte} (ht : s.transport = .ideal dev₀)
    (hq : s.req = some (.busWriteRead dev₀ [a] 1)) (hv : s.reg.read a.toNat = some v) :
    ∃ t, transportTurn s = .answered (.ok [v]) t ∧ t.seq = s.seq ∧ t.cmd = s.cmd ∧ t.owned = s.owned ∧ t.devaddr = s.devaddr ∧
      t.hi = s.hi ∧ t.reg = s.reg ∧ t.transport = .ideal dev₀ ∧ t.moves = s.moves :=
  ⟨_, transportTurn_ideal (r := .ok [v]) (m := s.reg) (k := s.tick) hq ht (by simp [idealAnswer, BusRequest.dev, hv]),
    rfl, rfl, rfl, rfl, rfl, rfl, ht, rfl⟩

/-! ## What the invariant says (R18, R19, R34) -/

theorem State.Inv.idle_req {s : State} (h : s.Inv) (hs : s.seq = .idle) : s.req = none := by
  simpa [State.sequencerOk, hs] using h.sequencer

theorem State.Inv.busy {s : State} (h : s.Inv) (hs : s.seq ≠ .idle) :
    s.owned = true ∧ s.rspValid = false ∧
      ∃ i q, decode s.cmd = .ok i ∧ s.req = some q ∧ (i.transactions s.devaddr)[s.seq.index]? = some q := by
  have hseq := h.sequencer
  unfold State.sequencerOk at hseq
  split at hseq
  · exact absurd ‹_› hs
  all_goals
    rename_i hp
    simp only [Bool.and_eq_true] at hseq
    obtain ⟨⟨ho, hv⟩, hd⟩ := hseq
    split at hd
    · rename_i i hi
      simp only [Bool.and_eq_true, beq_iff_eq] at hd
      obtain ⟨q, hq⟩ := Option.isSome_iff_exists.mp hd.1
      exact ⟨ho, by simpa using hv, i, q, hi, hq, by simpa [hp, Phase.index] using hd.2.symm.trans hq⟩
    · cases hd

end Sys2Proof.Machine
end

