-- ==== Sys2Proof/Tests/Slice0.lean ====
section
/-!
SUPPORT. Tests of single steps with results from spec/95_test_vectors.md and the worked examples of the rules; the smoke test of
WellFormed; and for every obligation with hypotheses a concrete state that meets them.
-/

namespace Sys2Proof.Tests

open Sys2Proof Sys2Proof.Machine

/-! ## Well-formedness: ill-formed terms are refused (R73, R36, R40) -/

theorem test_wf_write : (BusRequest.busWrite 0x68 [0x1F, 0x03]).wellFormed = true := by decide
theorem test_wf_read : (BusRequest.busWriteRead 0x69 [0x0B] 1).wellFormed = true := by decide
theorem test_ill_formed_device : (BusRequest.busWrite 0x6A [0x1F, 0x03]).wellFormed = false := by decide
theorem test_ill_formed_write_of_one : (BusRequest.busWrite 0x68 [0x1F]).wellFormed = false := by decide
theorem test_ill_formed_write_of_three : (BusRequest.busWrite 0x68 [0x1F, 0x03, 0x00]).wellFormed = false := by decide
theorem test_ill_formed_read_of_two : (BusRequest.busWriteRead 0x68 [0x0B] 2).wellFormed = false := by decide
theorem test_ill_formed_read_address : (BusRequest.busWriteRead 0x68 [0x0B, 0x0C] 1).wellFormed = false := by decide
theorem test_ill_formed_read_device : (BusRequest.busWriteRead 0x67 [0x0B] 1).wellFormed = false := by decide
theorem test_answer_too_short : (BusAnswer.ok []).fits (.busWriteRead 0x68 [0x0B] 1) = false := by decide
theorem test_answer_too_long : (BusAnswer.ok [0x00]).fits (.busWrite 0x68 [0x1F, 0x03]) = false := by decide
theorem test_commands_well_formed : (Instr.writeRegister 0xFF 0x00).wellFormed = true := by decide

/-! ## The decoder: words written out from R68, and V-A -/

theorem test_decode_new_ad0 : decode 0b00000001_00000000_00000000 = .ok (.new .ad0) := rfl
theorem test_decode_new_ad1 : decode 0b00000001_00000000_00000001 = .ok (.new .ad1) := rfl
theorem test_decode_drop : decode 0b00000010_00000000_00000000 = .ok .drop := rfl
theorem test_decode_write_register : decode 0b00010000_00011111_00000011 = .ok (.writeRegister 0x1F 0x03) := rfl
theorem test_decode_write_register_top : decode 0b00010000_11111111_11111111 = .ok (.writeRegister 0xFF 0xFF) := rfl
theorem test_decode_read_register : decode 0b00010001_00001011_00000000 = .ok (.readRegister 0x0B) := rfl
theorem test_decode_read_register_as_u16 : decode 0b00010010_00001011_00001100 = .ok (.readRegisterAsU16 0x0B 0x0C) := rfl
theorem test_decode_set_low_noise : decode 0b00100000_00000000_00000000 = .ok .setAccelLowNoiseMode := rfl
theorem test_decode_read_accel_x : decode 0b00100001_00000000_00000000 = .ok .readAccelX := rfl
theorem test_decode_read_accel_y : decode 0b00100010_00000000_00000000 = .ok .readAccelY := rfl
theorem test_decode_read_accel_z : decode 0b00100011_00000000_00000000 = .ok .readAccelZ := rfl

/-- V-A1, V-A9, V-A10, V-A21, V-A22, V-A32, V-A33, V-A34: reserved opcodes. -/
theorem test_reserved_opcodes :
    [0x000000, 0x030000, 0x0F0000, 0x130000, 0x1F0000, 0x240000, 0x800000, 0xFFFFFF].all
      (fun w => (decode w).toOption.isNone) = true := by decide

/-- V-A4, V-A5, V-A6, V-A8, V-A16, V-A24, V-A25, V-A27, V-A29, V-A31: must-be-zero fields. -/
theorem test_must_be_zero_fields :
    [0x010002, 0x010100, 0x0100FF, 0x020001, 0x110B01, 0x200001, 0x201F03, 0x210B0C, 0x220100, 0x230010].all
      (fun w => (decode w).toOption.isNone) = true := by decide

theorem test_decode_table_word : decodeTableWord 24 0x120B0C = some (.readRegisterAsU16 0x0B 0x0C) := rfl
theorem test_decode_table_word_illegal : decodeTableWord 24 0x110B01 = none := rfl

/-! ## The textual form (R75) -/

theorem test_read_line_write : readLine "WRITE_REGISTER PWR_MGMT, 0b0000_0011 ; low noise".toList = .command (.writeRegister 0x1F 0x03) := by
  decide
theorem test_read_line_range : readLine "READ_REGISTER 256".toList = .malformed := by decide
theorem test_read_line_blank : readLine "  ; a comment".toList = .blank := by decide

/-! ## One step of each command -/

/-- The state of a `next` outcome. -/
def outcomeState : Outcome → Option State
  | .next t => some t
  | .fault _ => none
  | .refused _ => none

/-- After `NEW`, with a word presented. -/
def presented (dev : DevAddr) (w : CommandWord) : State :=
  { State.reset with owned := true, devaddr := dev, rspValid := true, moves := [.present w] }

/-- Waiting at `0x68` for the answer to the first transaction, with one scripted answer. -/
def waiting (w : CommandWord) (q : BusRequest) (r : BusAnswer) : State :=
  { State.reset with
    owned := true
    seq := .xfer1
    cmd := w
    req := some q
    transport := .scripted [r]
    moves := [.transport] }

/-- Waiting for the answer to the second transaction, with the upper byte in `HI`. -/
def waiting₂ (w : CommandWord) (q₁ q₂ : BusRequest) (hi : Byte) (r : BusAnswer) : State :=
  { waiting w q₂ r with
    seq := .xfer2
    hi := hi
    log := [⟨q₁, .ok [hi]⟩] }

/-- What a step leaves of the phase, the request and the response. -/
def portsAfter (s : State) : Option (Phase × Option BusRequest × Bool × ResponseWord) :=
  (outcomeState (step s)).map fun t => (t.seq, t.req, t.rspValid, t.rsp)

/-- V-D2. -/
theorem test_new_ad1 :
    (outcomeState (step { State.reset with moves := [.present 0x010001] })).map (fun t => (t.owned, t.devaddr, t.rsp)) =
      some (true, 0x69, 0x00000000) := by decide
/-- R91: a second `NEW` is refused and the address stays. -/
theorem test_new_refused :
    (outcomeState (step (presented 0x69 0x010000))).map (fun t => (t.devaddr, t.rsp)) = some (0x69, 0x02000000) := by decide
/-- R92's worked example. -/
theorem test_drop :
    (outcomeState (step (presented 0x68 0x020000))).map (fun t => (t.owned, t.rsp, t.log)) = some (false, 0x00000000, []) := by
  decide
/-- V-E2. -/
theorem test_drop_refused :
    portsAfter { State.reset with moves := [.present 0x020000] } = some (.idle, none, true, 0x02000000) := by decide
/-- V-B5. -/
theorem test_write_register_accepted :
    (portsAfter (presented 0x69 0x101F03)).map (fun p => (p.1, p.2.1)) =
      some (.xfer1, some (.busWrite 0x69 [0x1F, 0x03])) := by decide
/-- V-B6. -/
theorem test_write_register_failed :
    portsAfter (waiting 0x101F03 (.busWrite 0x68 [0x1F, 0x03]) (.err .noAcknowledge)) =
      some (.idle, none, true, 0x01010000) := by decide
/-- V-B10, its acceptance. -/
theorem test_read_register_accepted :
    (portsAfter (presented 0x69 0x11FF00)).map (fun p => (p.1, p.2.1)) =
      some (.xfer1, some (.busWriteRead 0x69 [0xFF] 1)) := by decide
/-- V-B9: the byte is zero-extended. -/
theorem test_read_register_answered :
    portsAfter (waiting 0x110B00 (.busWriteRead 0x68 [0x0B] 1) (.ok [0xFF])) = some (.idle, none, true, 0x000000FF) := by
  decide
/-- V-C1. -/
theorem test_read_register_as_u16_composes :
    portsAfter (waiting₂ 0x120B0C (.busWriteRead 0x68 [0x0B] 1) (.busWriteRead 0x68 [0x0C] 1) 0x80 (.ok [0x00])) =
      some (.idle, none, true, 0x00008000) := by decide
/-- S4, V-E1: the upper read fails and the lower one is not issued. -/
theorem test_read_register_as_u16_upper_failed :
    portsAfter (waiting 0x120B0C (.busWriteRead 0x68 [0x0B] 1) (.err (.transportDefined 150))) =
      some (.idle, none, true, 0x019C0000) := by decide
/-- S5. -/
theorem test_set_low_noise_accepted :
    (portsAfter (presented 0x68 0x200000)).map (fun p => (p.1, p.2.1)) =
      some (.xfer1, some (.busWrite 0x68 [0x1F, 0x03])) := by decide
/-- R93: the sensor's mode after the answer. -/
theorem test_set_low_noise_answered :
    (outcomeState (step (waiting 0x200000 (.busWrite 0x68 [0x1F, 0x03]) (.ok [])))).map (fun t => (t.pmode, t.rsp)) =
      some (.lowNoise, 0x00000000) := by decide
/-- V-E7, step 2. -/
theorem test_read_accel_x_upper :
    (outcomeState (step (waiting 0x210000 (.busWriteRead 0x68 [0x0B] 1) (.ok [0x12])))).map
      (fun t => (t.seq, t.hi, t.req, t.rspValid)) = some (.xfer2, 0x12, some (.busWriteRead 0x68 [0x0C] 1), false) := by decide
/-- V-E7, step 3. -/
theorem test_read_accel_x_lower :
    portsAfter (waiting₂ 0x210000 (.busWriteRead 0x68 [0x0B] 1) (.busWriteRead 0x68 [0x0C] 1) 0x12 (.ok [0x34])) =
      some (.idle, none, true, 0x00001234) := by decide
/-- S8. -/
theorem test_read_accel_y_lower_failed :
    portsAfter (waiting₂ 0x220000 (.busWriteRead 0x68 [0x0D] 1) (.busWriteRead 0x68 [0x0E] 1) 0xAB (.err .noAcknowledge)) =
      some (.idle, none, true, 0x01010000) := by decide
/-- R95: the pair of the Y axis. -/
theorem test_read_accel_y_upper :
    (portsAfter (waiting 0x220000 (.busWriteRead 0x68 [0x0D] 1) (.ok [0x80]))).map (fun p => p.2.1) =
      some (some (.busWriteRead 0x68 [0x0E] 1)) := by decide
/-- V-D10. -/
theorem test_read_accel_z_lower :
    portsAfter (waiting₂ 0x230000 (.busWriteRead 0x68 [0x0F] 1) (.busWriteRead 0x68 [0x10] 1) 0xFF (.ok [0xFE])) =
      some (.idle, none, true, 0x0000FFFE) := by decide
/-- V-D11, its acceptance. -/
theorem test_read_accel_z_accepted :
    (portsAfter (presented 0x69 0x230000)).map (fun p => (p.1, p.2.1)) =
      some (.xfer1, some (.busWriteRead 0x69 [0x0F] 1)) := by decide
/-- V-F2. -/
theorem test_reset_in_mid_command :
    (outcomeState (step { waiting₂ 0x210000 (.busWriteRead 0x68 [0x0B] 1) (.busWriteRead 0x68 [0x0C] 1) 0x12 (.ok [0x34]) with
      moves := [.hostReset] })).map (fun t => (t.owned, t.seq, t.rspValid, t.req, t.log)) =
      some (false, .idle, false, none, []) := by decide
/-- P3, command 3: the device answers with the register as the sample left it. -/
theorem test_ideal_device_after_a_sample :
    (outcomeState (step { waiting₂ 0x210000 (.busWriteRead 0x68 [0x0B] 1) (.busWriteRead 0x68 [0x0C] 1) 0x01 (.ok []) with
      transport := .ideal 0x68
      reg := Memory.writeAll [(0x0B, 0x01), (0x0C, 0xFF)] [(0x0B, 0x02), (0x0C, 0x00)] })).map (fun t => t.rsp) =
      some 0x00000100 := by decide
/-- P5, command 2. -/
theorem test_ideal_device_elsewhere :
    (outcomeState (step { waiting 0x200000 (.busWrite 0x68 [0x1F, 0x03]) (.ok []) with transport := .ideal 0x69 })).map
      (fun t => (t.rsp, t.reg)) = some (0x01010000, []) := by decide
/-- V-E3 with R60: a fetched word runs as the very next step. -/
theorem test_with_fetch_word :
    (outcomeState (step (State.reset.withFetchWord 24 0x010000))).map (fun t => (t.owned, t.devaddr, t.rsp)) =
      some (true, 0x68, 0x00000000) := by decide

/-! ## Witnesses: states and operands that meet the hypotheses of each obligation that has any -/

/-- The requests of the X axis at `0x68`. -/
def readXHi : BusRequest := .busWriteRead 0x68 [0x0B] 1
def readXLo : BusRequest := .busWriteRead 0x68 [0x0C] 1
def writeMode : BusRequest := .busWrite 0x68 [0x1F, 0x03]

/-- Waiting for the answer to the power-mode write, and to either read of the X axis. -/
def writing (r : BusAnswer) : State := waiting 0x200000 writeMode r
def readingHi (r : BusAnswer) : State := waiting 0x210000 readXHi r
def readingLo (r : BusAnswer) : State := waiting₂ 0x210000 readXHi readXLo 0x12 r
def readingOne (r : BusAnswer) : State := waiting 0x110B00 readXHi r

theorem witness_DecodeOfEncodeIsTheCommand : (Instr.readRegisterAsU16 0x00 0xFF).wellFormed = true := rfl
theorem witness_EncodeOfDecodeIsTheWord : decode 0x10FF00#24 = .ok (.writeRegister 0xFF 0x00) := rfl
theorem witness_NoTwoRowsAcceptOneWord : ∃ r ∈ opcodeTable, r.accepts 0x110B00 = true :=
  ⟨⟨"READ_REGISTER", 0x110000, 0xFF00FF⟩, by decide, by decide⟩

/-- A word illegal by its bits is presented at the ready port: for the clauses about must-be-zero fields. -/
theorem witness_RefusedByEncoding :
    State.reset.seq = .idle ∧ State.reset.req = none ∧
      ({ State.reset with moves := [.present 0x110B01] } : State).moves = [.present (0x11#8 ++ 0x0B#8 ++ 0x01#8)] ∧ 0x01#8 ≠ 0 := by
  decide
theorem witness_RefusedByEncoding_new : (0x0001#15 ≠ 0) ∧ (0x01#8 ++ 0x0001#15 ++ 0x1#1 : BitVec 24) = 0x010003 := by decide
theorem witness_RefusedByEncoding_none : (0x0001#16 ≠ 0) ∧ (0x20#8 ++ 0x0001#16 : BitVec 24) = 0x200001 := by decide

theorem witness_ActsAs_refused : State.reset.seq = .idle ∧ State.reset.req = none ∧ State.reset.owned = false := ⟨rfl, rfl, rfl⟩
theorem witness_ActsAs_accepted : (presented 0x69 0x101F03).seq = .idle ∧ (presented 0x69 0x101F03).owned = true := ⟨rfl, rfl⟩
theorem witness_ActsAsWrite_error :
    ∃ t, (writing (.err .noAcknowledge)).seq = .xfer1 ∧
      transportTurn (writing (.err .noAcknowledge)) = .answered (.err .noAcknowledge) t := ⟨_, rfl, rfl⟩
theorem witness_ActsAsWrite_ok : ∃ t, (writing (.ok [])).seq = .xfer1 ∧ transportTurn (writing (.ok [])) = .answered (.ok []) t :=
  ⟨_, rfl, rfl⟩
theorem witness_ActsAsRead_error :
    ∃ t, (readingOne (.err .timeout)).seq = .xfer1 ∧ transportTurn (readingOne (.err .timeout)) = .answered (.err .timeout) t :=
  ⟨_, rfl, rfl⟩
theorem witness_ActsAsRead_ok :
    ∃ t, (readingOne (.ok [0xFF])).seq = .xfer1 ∧ transportTurn (readingOne (.ok [0xFF])) = .answered (.ok [0xFF]) t := ⟨_, rfl, rfl⟩
theorem witness_ActsAsComposedRead_upper_error :
    ∃ t, (readingHi (.err .busBusy)).seq = .xfer1 ∧ transportTurn (readingHi (.err .busBusy)) = .answered (.err .busBusy) t :=
  ⟨_, rfl, rfl⟩
theorem witness_ActsAsComposedRead_upper_ok :
    ∃ t, (readingHi (.ok [0x00])).seq = .xfer1 ∧ transportTurn (readingHi (.ok [0x00])) = .answered (.ok [0x00]) t := ⟨_, rfl, rfl⟩
theorem witness_ActsAsComposedRead_lower_error :
    ∃ t, (readingLo (.err .busBusy)).seq = .xfer2 ∧ transportTurn (readingLo (.err .busBusy)) = .answered (.err .busBusy) t :=
  ⟨_, rfl, rfl⟩
theorem witness_ActsAsComposedRead_lower_ok :
    ∃ t, (readingLo (.ok [0xFF])).seq = .xfer2 ∧ transportTurn (readingLo (.ok [0xFF])) = .answered (.ok [0xFF]) t := ⟨_, rfl, rfl⟩
theorem witness_NewConstructsTheHandle_refused :
    (presented 0x68 0x010001).seq = .idle ∧ (presented 0x68 0x010001).req = none ∧ (presented 0x68 0x010001).owned = true :=
  ⟨rfl, rfl, rfl⟩
theorem witness_SetAccelLowNoiseMode_mode_ok :
    ∃ t, (writing (.ok [])).req = some (.busWrite (writing (.ok [])).devaddr [0x1F, 0x03]) ∧
      transportTurn (writing (.ok [])) = .answered (.ok []) t := ⟨_, rfl, rfl⟩
theorem witness_SetAccelLowNoiseMode_mode_error :
    ∃ t, (writing (.err .timeout)).req = some (.busWrite (writing (.err .timeout)).devaddr [0x1F, 0x03]) ∧
      transportTurn (writing (.err .timeout)) = .answered (.err .timeout) t := ⟨_, rfl, rfl⟩
theorem witness_CompositionIsExact : compose 0xFF 0x00 = compose 0xFF 0x00 := rfl

theorem witness_CommandsWriteOnlyTheirRegisters_upper :
    ∃ t, exec .readAccelX (readingHi (.ok [0x12])) = .next t ∧ t.hi ≠ (readingHi (.ok [0x12])).hi := ⟨_, rfl, by decide⟩
theorem witness_CommandsWriteOnlyTheirRegisters_latch :
    ∃ t, exec .readAccelX (presented 0x68 0x210000) = .next t ∧ t.cmd ≠ (presented 0x68 0x210000).cmd := ⟨_, rfl, by decide⟩
theorem witness_CommandsWriteOnlyTheirRegisters_none :
    ∃ t, exec .drop (presented 0x68 0x020000) = .next t ∧ Instr.drop.transactions (presented 0x68 0x020000).devaddr = [] :=
  ⟨_, rfl, rfl⟩

/-- The same states with the ideal device at `0x68`. -/
def idealWriting : State := { writing (.ok []) with transport := .ideal 0x68 }
def idealReading : State := { readingOne (.ok []) with transport := .ideal 0x68, reg := [(0x0B, 0x55)] }

theorem witness_CommandsStoreOnlyWhereTheyWrite_accepted :
    ∃ t, exec .setAccelLowNoiseMode (presented 0x68 0x200000) = .next t ∧ (presented 0x68 0x200000).seq = .idle := ⟨_, rfl, rfl⟩
theorem witness_CommandsStoreOnlyWhereTheyWrite_write :
    ∃ t, exec .setAccelLowNoiseMode idealWriting = .next t ∧ idealWriting.seq ≠ .idle ∧ idealWriting.transport = .ideal 0x68 ∧
      idealWriting.req = some (.busWrite 0x68 [0x1F, 0x03]) := ⟨_, rfl, by decide, rfl, rfl⟩
theorem witness_CommandsStoreOnlyWhereTheyWrite_read :
    ∃ t, exec (.readRegister 0x0B) idealReading = .next t ∧ idealReading.seq ≠ .idle ∧ idealReading.transport = .ideal 0x68 ∧
      (∀ a v, idealReading.req ≠ some (.busWrite 0x68 [a, v])) ∧ idealReading.reg.read 0x0B = some 0x55 :=
  ⟨_, rfl, by decide, rfl, (by intro a v h; cases h), rfl⟩

/-- A session at `0x68`: a script, a word, and turns of the transport. -/
def session (w : CommandWord) (script : List BusAnswer) (turns : List Move) : State :=
  { presented 0x68 w with transport := .scripted script, moves := .present w :: turns }

theorem witness_OneTransactionCommandsRunWhole :
    let s := session 0x200000 [.ok []] [.transport]
    Instr.setAccelLowNoiseMode.transactions s.devaddr = [writeMode] ∧ s.seq = .idle ∧ s.owned = true ∧
      s.transport = .scripted [.ok []] ∧ (BusAnswer.ok []).fits writeMode = true ∧
      s.moves = [.present (encode .setAccelLowNoiseMode), .transport] := by decide
theorem witness_ComposedReadsRunWhole_upper_error :
    let s := session 0x210000 [.err .noAcknowledge] [.transport]
    Instr.readAccelX.transactions s.devaddr = [readXHi, readXLo] ∧ s.seq = .idle ∧ s.owned = true ∧
      s.transport = .scripted [.err .noAcknowledge] ∧ s.moves = [.present (encode .readAccelX), .transport] := by decide
theorem witness_ComposedReadsRunWhole_lower_error :
    let s := session 0x210000 [.ok [0x12], .err .arbitrationLoss] [.transport, .transport]
    Instr.readAccelX.transactions s.devaddr = [readXHi, readXLo] ∧ s.seq = .idle ∧ s.owned = true ∧
      s.transport = .scripted [.ok [0x12], .err .arbitrationLoss] ∧
      s.moves = [.present (encode .readAccelX), .transport, .transport] := by decide
theorem witness_ComposedReadsRunWhole_ok :
    let s := session 0x210000 [.ok [0x12], .ok [0x34]] [.transport, .transport]
    Instr.readAccelX.transactions s.devaddr = [readXHi, readXLo] ∧ s.seq = .idle ∧ s.owned = true ∧
      s.transport = .scripted [.ok [0x12], .ok [0x34]] ∧ s.moves = [.present (encode .readAccelX), .transport, .transport] := by
  decide
theorem witness_ComposedReadAgreesWithTwoReads :
    (session 0x120B0C [] []).seq = .idle ∧ (session 0x120B0C [] []).owned = true := ⟨rfl, rfl⟩

/-- P3: the ideal device with the sample `0x01FF`, and the moves given. -/
def torn (moves : List Move) : State :=
  { presented 0x68 0x210000 with transport := .ideal 0x68, reg := [(0x0B, 0x01), (0x0C, 0xFF)], moves := moves }

theorem witness_ComposedReadsCanBeTorn :
    let s := torn [.present 0x210000, .transport, .sample [(0x0B, 0x02), (0x0C, 0x00)], .transport]
    Instr.readAccelX.transactions s.devaddr = [.busWriteRead s.devaddr [0x0B] 1, .busWriteRead s.devaddr [0x0C] 1] ∧
      (0x0B#8 ≠ 0x0C#8) ∧ s.seq = .idle ∧ s.owned = true ∧ s.transport = .ideal s.devaddr ∧ s.reg.read 0x0B = some 0x01 ∧
      s.reg.read 0x0C = some 0xFF ∧
      s.moves = [.present (encode .readAccelX), .transport, .sample [(0x0B, 0x02), (0x0C, 0x00)], .transport] := by decide
theorem witness_ComposedReadsCanBeTorn_before :
    (torn [.present 0x210000, .sample [(0x0B, 0x02), (0x0C, 0x00)], .transport, .transport]).moves =
      [.present (encode .readAccelX), .sample [(0x0B, 0x02), (0x0C, 0x00)], .transport, .transport] := by decide
theorem witness_ComposedReadsCanBeTorn_after :
    (torn [.present 0x210000, .transport, .transport, .sample [(0x0B, 0x02), (0x0C, 0x00)]]).moves =
      [.present (encode .readAccelX), .transport, .transport, .sample [(0x0B, 0x02), (0x0C, 0x00)]] := by decide

theorem witness_BusErrorEndsTheCommand :
    ∃ t, (readingLo (.err .timeout)).seq ≠ .idle ∧
      (Instr.readAccelX.transactions (readingLo (.err .timeout)).devaddr)[(readingLo (.err .timeout)).seq.index]? = some readXLo ∧
      transportTurn (readingLo (.err .timeout)) = .answered (.err .timeout) t := ⟨_, by decide, rfl, rfl⟩
theorem writing_failed_inv : (writing (.err .noAcknowledge)).Inv :=
  ⟨by decide, by decide, by decide, by decide, by decide, by decide, by decide⟩
theorem witness_BusErrorHasOneCause :
    ∃ t, (writing (.err .noAcknowledge)).Inv ∧ step (writing (.err .noAcknowledge)) = .next t ∧ t.rspValid = true ∧
      statusField t.rsp = 0x01#8 ∧ (writing (.err .noAcknowledge)).rspValid = false := ⟨_, writing_failed_inv, rfl, rfl, rfl, rfl⟩
theorem witness_ErrorCodesAreOneToOne : BusErr.timeout.code = BusErr.timeout.code ∧ (0xFF#8 ≠ 0x00#8) := ⟨rfl, by decide⟩
theorem answered_inv : ({ State.reset with rspValid := true, rsp := 0x019C0000 } : State).Inv :=
  ⟨by decide, by decide, by decide, by decide, by decide, by decide, by decide⟩
theorem witness_ResponsesAreOfThreeKinds_error :
    let s : State := { State.reset with rspValid := true, rsp := 0x019C0000 }
    s.Inv ∧ s.readResponse = some 0x019C0000 ∧ statusField 0x019C0000 ≠ 0x00#8 := ⟨answered_inv, rfl, by decide⟩
theorem witness_ResponsesAreOfThreeKinds_ok :
    (presented 0x69 0x230000).readResponse = some 0x00000000 ∧ statusField 0x00000000 = 0x00#8 := ⟨rfl, rfl⟩
theorem witness_IllegalWordIsAnsweredAtOnce :
    (presented 0x69 0xFFFFFF).seq = .idle ∧ (presented 0x69 0xFFFFFF).req = none ∧
      (presented 0x69 0xFFFFFF).moves = [.present 0xFFFFFF] ∧ ∃ e, decode 0xFFFFFF = .error e := ⟨rfl, rfl, rfl, _, rfl⟩
theorem witness_RefusalsByStateAnswerIllegal_no_handle :
    State.reset.seq = .idle ∧ State.reset.req = none ∧ (∀ ad, Instr.drop ≠ .new ad) ∧ State.reset.owned = false :=
  ⟨rfl, rfl, (by intro ad h; cases h), rfl⟩
theorem witness_RefusalsByStateAnswerIllegal_handle :
    (presented 0x68 0x010001).seq = .idle ∧ (presented 0x68 0x010001).req = none ∧ Instr.new .ad1 = .new .ad1 ∧
      (presented 0x68 0x010001).owned = true := ⟨rfl, rfl, rfl, rfl⟩
theorem witness_FailureLeavesWhatSuccessLeaves_first :
    (writing (.ok [])).seq ≠ .idle ∧
      (Instr.setAccelLowNoiseMode.transactions (writing (.ok [])).devaddr)[(writing (.ok [])).seq.index]? = some writeMode ∧
      (Instr.setAccelLowNoiseMode.transactions (writing (.ok [])).devaddr).length = (writing (.ok [])).seq.index + 1 ∧
      (writing (.ok [])).req = some writeMode ∧ ([] : List Byte).length = writeMode.readCount := by decide
theorem witness_FailureLeavesWhatSuccessLeaves_second :
    (readingLo (.ok [0x34])).seq ≠ .idle ∧
      (Instr.readAccelX.transactions (readingLo (.ok [0x34])).devaddr)[(readingLo (.ok [0x34])).seq.index]? = some readXLo ∧
      (Instr.readAccelX.transactions (readingLo (.ok [0x34])).devaddr).length = (readingLo (.ok [0x34])).seq.index + 1 ∧
      (readingLo (.ok [0x34])).req = some readXLo ∧ [0x34#8].length = readXLo.readCount := by decide
theorem witness_MistakesInTheScriptAreRefused_exhausted :
    let s := { readingHi (.ok []) with transport := .scripted [] }
    s.seq ≠ .idle ∧ (Instr.readAccelX.transactions s.devaddr)[s.seq.index]? = some readXHi ∧ s.req = some readXHi ∧
      s.transport = .scripted [] := by decide
theorem witness_MistakesInTheScriptAreRefused_shape :
    let s := readingHi (.ok [0x12, 0x34])
    s.seq ≠ .idle ∧ (Instr.readAccelX.transactions s.devaddr)[s.seq.index]? = some readXHi ∧ s.req = some readXHi ∧
      s.transport = .scripted [.ok [0x12, 0x34]] ∧ [0x12#8, 0x34#8].length ≠ readXHi.readCount := by decide

/-- Between the two reads, with the unconstrained transport and nothing else to come. -/
def busyOracle : State := { readingLo (.ok []) with transport := .oracle, moves := [] }

theorem busyOracle_inv : busyOracle.Inv := ⟨by decide, by decide, by decide, by decide, by decide, by decide, by decide⟩
theorem readingLo_inv : (readingLo (.ok [0x34])).Inv := ⟨by decide, by decide, by decide, by decide, by decide, by decide, by decide⟩
theorem readingHi_inv : (readingHi (.ok [0x12])).Inv := ⟨by decide, by decide, by decide, by decide, by decide, by decide, by decide⟩
theorem over_inv : ({ presented 0x69 0 with moves := [.transport, .sample [(0x0B, 0x02)]] } : State).Inv :=
  ⟨by decide, by decide, by decide, by decide, by decide, by decide, by decide⟩
theorem presented_inv : (presented 0x69 0x230000).Inv := ⟨by decide, by decide, by decide, by decide, by decide, by decide, by decide⟩
theorem unowned_inv : ({ State.reset with rspValid := true } : State).Inv :=
  ⟨by decide, by decide, by decide, by decide, by decide, by decide, by decide⟩

theorem witness_NothingStopsTheBlock :
    busyOracle.Inv ∧ busyOracle.transport = .oracle ∧
      ∃ t, (readingLo (.ok [0x34])).Inv ∧ step (readingLo (.ok [0x34])) = .next t ∧ t.rspValid = true :=
  ⟨busyOracle_inv, rfl, _, readingLo_inv, rfl, rfl⟩
theorem witness_StepRunsTheDecodedCommand_port :
    decode 0x230000#24 = .ok .readAccelZ ∧ (presented 0x69 0x230000).seq = .idle ∧
      (presented 0x69 0x230000).moves = [.present 0x230000] := ⟨rfl, rfl, rfl⟩
theorem witness_StepRunsTheDecodedCommand_turn :
    decode 0x210000#24 = .ok .readAccelX ∧ (readingLo (.ok [0x34])).seq ≠ .idle ∧ (readingLo (.ok [0x34])).cmd = 0x210000 ∧
      (readingLo (.ok [0x34])).moves = [.transport] := ⟨rfl, by decide, rfl, rfl⟩
theorem witness_StepRunsTheDecodedCommand_idle_host : busyOracle.seq ≠ .idle ∧ busyOracle.cmd = 0x210000 ∧ busyOracle.moves = [] :=
  ⟨by decide, rfl, rfl⟩
theorem witness_BusyPortLeavesTheWordWithTheHost :
    let s := { readingHi (.ok [0x12]) with moves := [.present 0x020000] }
    ∃ t, s.seq ≠ .idle ∧ s.moves = [.present 0x020000] ∧ step s = .next t := ⟨_, by decide, rfl, rfl⟩
theorem witness_BlockWaitsUntilItIsAnswered :
    busyOracle.Inv ∧ busyOracle.seq ≠ .idle ∧ busyOracle.req = some readXLo ∧ busyOracle.transport = .oracle ∧
      busyOracle.moves = [] := ⟨busyOracle_inv, by decide, rfl, rfl, rfl⟩
theorem witness_IdleBlockDoesNothing :
    let s := { presented 0x68 0 with moves := [.sample [(0x0B, 0x02)]] }
    ∃ t, s.seq = .idle ∧ (∀ w rest, s.moves ≠ .present w :: rest) ∧ (∀ rest, s.moves ≠ .hostReset :: rest) ∧ step s = .next t :=
  ⟨_, rfl, (by intro w rest h; cases h), (by intro rest h; cases h), rfl⟩
theorem witness_RunsAreOverOnlyInIdle :
    let s : State := { presented 0x69 0 with moves := [.transport, .sample [(0x0B, 0x02)]] }
    s.Inv ∧ s.runOver = true ∧ .hostReset ∉ s.moves := ⟨over_inv, by decide, by decide⟩
theorem witness_ResetOfTheBlock :
    ({ readingLo (.ok []) with moves := [.hostReset] } : State).moves = [.hostReset] ∧ (readingLo (.ok [])).req ≠ none ∧
      ({ presented 0x68 0 with moves := [.hostReset] } : State).moves = [.hostReset] ∧ (presented 0x68 0).req = none := by decide
theorem witness_StepKeepsTheInvariant : ∃ t, (readingHi (.ok [0x12])).Inv ∧ step (readingHi (.ok [0x12])) = .next t :=
  ⟨_, readingHi_inv, rfl⟩
theorem witness_SequencerTransitions :
    ∃ t, (readingHi (.ok [0x12])).Inv ∧ (∀ rest, (readingHi (.ok [0x12])).moves ≠ .hostReset :: rest) ∧
      step (readingHi (.ok [0x12])) = .next t := ⟨_, readingHi_inv, (by intro rest h; cases h), rfl⟩
theorem witness_DeviceAddressIsImmutable :
    ∃ t, step (presented 0x69 0x230000) = .next t ∧ (presented 0x69 0x230000).owned = true ∧ t.owned = true := ⟨_, rfl, rfl, rfl⟩
theorem witness_OwnershipChangesOnlyByItsCommands :
    ∃ t, step (presented 0x69 0x020000) = .next t ∧ t.owned ≠ (presented 0x69 0x020000).owned := ⟨_, rfl, by decide⟩
theorem witness_UpperByteIsWrittenOnlyByItsRead :
    ∃ t, step (readingHi (.ok [0x12])) = .next t ∧ t.hi ≠ (readingHi (.ok [0x12])).hi := ⟨_, rfl, by decide⟩
theorem witness_NoTransactionWithoutAHandle :
    let s : State := { State.reset with rspValid := true }
    ∃ t, s.Inv ∧ s.owned = false ∧ (∀ rest, s.moves ≠ .hostReset :: rest) ∧ step s = .next t :=
  ⟨_, unowned_inv, rfl, (by intro rest h; cases h), rfl⟩
theorem witness_OneTransactionAtATime :
    ∃ t, (∀ rest, (presented 0x69 0x230000).moves ≠ .hostReset :: rest) ∧ (presented 0x69 0x230000).Inv ∧
      step (presented 0x69 0x230000) = .next t := ⟨_, (by intro rest h; cases h), presented_inv, rfl⟩
theorem witness_EveryTransactionHasALegalFormat :
    (readingLo (.ok [0x34])).Inv ∧ (readXHi, some (.ok [0x12])) ∈ (readingLo (.ok [0x34])).trace ∧
      (readXLo, none) ∈ (readingLo (.ok [0x34])).trace ∧ (readingLo (.ok [0x34])).req = some readXLo :=
  ⟨readingLo_inv, by decide, by decide, rfl⟩
theorem witness_SensorModeIsKnownOnlyFromItsCauses_low_noise :
    ∃ t, step (writing (.ok [])) = .next t ∧ t.pmode = .lowNoise := ⟨_, rfl, rfl⟩
theorem witness_SensorModeIsKnownOnlyFromItsCauses_idle :
    ∃ t, step { State.reset with moves := [.sensorPowerOn] } = .next t ∧ t.pmode = .idle := ⟨_, rfl, rfl⟩
theorem witness_SensorModeIsKnownOnlyFromItsCauses_write :
    ∃ t t', (writing (.ok [])).req = some (.busWrite 0x68 [0x1F, 0x03]) ∧
      transportTurn (writing (.ok [])) = .answered (.ok []) t ∧
      (waiting 0x101F02 (.busWrite 0x68 [0x1F, 0x02]) (.ok [])).req = some (.busWrite 0x68 [0x1F, 0x02]) ∧
      transportTurn (waiting 0x101F02 (.busWrite 0x68 [0x1F, 0x02]) (.ok [])) = .answered (.ok []) t' ∧
      ¬((0x1F#8 = 0x1F#8) ∧ (0x02#8 = 0x03#8) ∧ ∃ data, BusAnswer.ok [] = .ok data) :=
  ⟨_, _, rfl, rfl, rfl, rfl, by intro h; exact absurd h.2.1 (by decide)⟩
theorem witness_IdealDeviceHoldsWhatIsWritten :
    idealWriting.transport = .ideal 0x68 ∧ idealWriting.req = some (.busWrite 0x68 [0x1F, 0x03]) ∧
      idealReading.transport = .ideal 0x68 ∧ idealReading.req = some (.busWriteRead 0x68 [0x0B] 1) ∧
      ({ idealReading with transport := .ideal 0x69 } : State).req = some readXHi ∧ readXHi.dev ≠ 0x69 := by decide
theorem witness_BlockNeverReadsTheSensorMode : ∀ dev₀, (writing (.ok [])).transport ≠ .ideal dev₀ := by intro d h; cases h
theorem witness_DeviceAddressIsAllThatAdChanges :
    (session 0x210000 [.ok [0x12]] [.transport]).transport ≠ .oracle ∧
      Move.hostReset ∉ (session 0x210000 [.ok [0x12]] [.transport]).moves := by decide
theorem witness_DeviceAddressIsAllThatAdChanges_new :
    State.reset.seq = .idle ∧ State.reset.owned = false ∧ State.reset.req = none ∧ State.reset.log = [] ∧
      Move.hostReset ∉ [Move.present 0x210000, .transport, .transport] := by decide


/-- Busy states with registers known: one that a write addresses and one that it does not. -/
def known (s : State) : State := { s with reg := [(0x0B, 0x55), (0x1F, 0x00)] }

theorem known_write_inv : (known (writing (.err .timeout))).Inv :=
  ⟨by decide, by decide, by decide, by decide, by decide, by decide, by decide⟩
theorem known_read_inv : (known (readingLo (.err .timeout))).Inv :=
  ⟨by decide, by decide, by decide, by decide, by decide, by decide, by decide⟩
theorem known_ok_inv : (known (readingLo (.ok [0x34]))).Inv :=
  ⟨by decide, by decide, by decide, by decide, by decide, by decide, by decide⟩

theorem witness_SensorMovesLeaveTheBlock_sample :
    let s : State := { known (readingLo (.ok [0x34])) with moves := [.sample [(0x0B, 0x01), (0x0C, 0x02), (0x0B, 0x03)]] }
    s.moves = [.sample [(0x0B, 0x01), (0x0C, 0x02), (0x0B, 0x03)]] ∧
      (∀ c ∈ [((0x0B#8 : RegAddr), 0x01#8), (0x0C, 0x02), (0x0B, 0x03)], c.1.toNat ≠ 0x1F) ∧
      [((0x0B#8 : RegAddr), 0x01#8), (0x0C, 0x02), (0x0B, 0x03)] = [(0x0B, 0x01)] ++ (0x0C, 0x02) :: [(0x0B, 0x03)] ∧
      (∀ c ∈ [((0x0B#8 : RegAddr), 0x03#8)], c.1 ≠ 0x0C) := ⟨rfl, by simp, rfl, by simp⟩
theorem witness_SensorMovesLeaveTheBlock_power_on :
    ({ readingHi (.ok [0x12]) with moves := [.sensorPowerOn] } : State).moves = [.sensorPowerOn] := rfl
theorem witness_KnownRegistersChangeOnlyByTheirCauses_unanswered :
    ∃ t, (presented 0x69 0x230000).Inv ∧ step (presented 0x69 0x230000) = .next t ∧
      (∀ cells rest, (presented 0x69 0x230000).moves ≠ .sample cells :: rest) ∧
      (∀ rest, (presented 0x69 0x230000).moves ≠ .sensorPowerOn :: rest) ∧
      (∀ rest, (presented 0x69 0x230000).moves ≠ .hostReset :: rest) ∧ t.log = (presented 0x69 0x230000).log :=
  ⟨_, presented_inv, rfl, (by intro cells rest h; cases h), (by intro rest h; cases h), (by intro rest h; cases h), rfl⟩
theorem witness_KnownRegistersChangeOnlyByTheirCauses_failed_write :
    let s := known (writing (.err .timeout))
    ∃ t, s.Inv ∧ step s = .next t ∧ (∀ dev₀, s.transport ≠ .ideal dev₀) ∧
      t.log = s.log ++ [⟨.busWrite 0x68 [0x1F, 0x03], .err .timeout⟩] ∧ s.reg.read 0x1F = some 0x00 ∧ s.reg.read 0x0B = some 0x55 :=
  ⟨_, known_write_inv, rfl, (by intro d h; cases h), rfl, rfl, rfl⟩
theorem witness_KnownRegistersChangeOnlyByTheirCauses_failed_read :
    let s := known (readingLo (.err .timeout))
    ∃ t, s.Inv ∧ step s = .next t ∧ (∀ dev₀, s.transport ≠ .ideal dev₀) ∧
      t.log = s.log ++ [⟨.busWriteRead 0x68 [0x0C] 1, .err .timeout⟩] :=
  ⟨_, known_read_inv, rfl, (by intro d h; cases h), rfl⟩
theorem witness_KnownRegistersChangeOnlyByTheirCauses_ok :
    let s := known (readingLo (.ok [0x34]))
    ∃ t, s.Inv ∧ step s = .next t ∧ (∀ dev₀, s.transport ≠ .ideal dev₀) ∧ t.log = s.log ++ [⟨readXLo, .ok [0x34]⟩] :=
  ⟨_, known_ok_inv, rfl, (by intro d h; cases h), rfl⟩

end Sys2Proof.Tests
end

section
/-!
SUPPORT. The word a command is latched as: the encoder and the decoder are each other's inverse (R62, R68 to R70; assumption 20).
-/

namespace Sys2Proof

theorem fieldsAre_encode (i : Instr) : i.fieldsAre (opField (encode i)) (aField (encode i)) (bField (encode i)) := by
  cases i with
  | new ad => exact (Laws.WordFields.new ad).1
  | drop => exact Laws.WordFields.drop.1
  | writeRegister reg value => exact (Laws.WordFields.writeRegister reg value).1
  | readRegister reg => exact (Laws.WordFields.readRegister reg).1
  | readRegisterAsU16 upper lower => exact (Laws.WordFields.readRegisterAsU16 upper lower).1
  | setAccelLowNoiseMode => exact Laws.WordFields.setAccelLowNoiseMode.1
  | readAccelX => exact Laws.WordFields.readAccelX.1
  | readAccelY => exact Laws.WordFields.readAccelY.1
  | readAccelZ => exact Laws.WordFields.readAccelZ.1

@[simp] theorem decode_encode (i : Instr) : decode (encode i) = .ok i := decodeFields_of_fieldsAre (fieldsAre_encode i)

theorem encode_eq_packWord {i : Instr} {op a b : Byte} (h : i.fieldsAre op a b) : encode i = packWord op a b := by
  cases i <;> obtain ⟨rfl, rfl, rfl⟩ := h <;> rfl

theorem encode_of_decode {w : CommandWord} {i : Instr} (h : decode w = .ok i) : encode i = w :=
  (encode_eq_packWord (decodeFields_ok h)).trans (packWord_fields w)

/-- Every transaction of a command to a legal address has one of the two formats (R36, R73). -/
theorem transactions_wellFormed {i : Instr} {dev : DevAddr} {q : BusRequest} (hd : DevAddr.legal dev = true)
    (hq : q ∈ i.transactions dev) : q.wellFormed = true := by
  cases i <;> simp [Instr.transactions] at hq <;> rcases hq with rfl | rfl <;> simp [BusRequest.wellFormed, hd]

end Sys2Proof
end

section
/-!
SUPPORT. What the meanings and the step leave alone, field by field, read off their inversions `Accepted`, `Continued` and `Stepped`
(R16 to R22).
-/

namespace Sys2Proof.Machine

/-- Acceptance leaves `HI` and the sensor's mode as they were. -/
theorem Accepted.frame {i : Instr} {s t : State} (h : Accepted i s t) : t.hi = s.hi ∧ t.pmode = s.pmode := by
  cases h <;> simp

/-- The state a waiting command's turn leaves: the counter has moved, or the outstanding request's answer is recorded, and then the
command has ended or, on the byte of the first of two transactions, issued the second (R19, R135). -/
theorem Continued.turn {i : Instr} {s t : State} (h : Continued i s t) :
    t = { s with tick := s.tick + 1 } ∨
    ∃ q r tr m k, s.req = some q ∧
      ((∃ st ec v, t = endCommand st ec v (recordAnswer q r { s with transport := tr, reg := m, tick := k })) ∨
        ∃ u q₂, r = .ok [u] ∧ s.seq = .xfer1 ∧ (i.transactions s.devaddr).length = 2 ∧
          t = issue q₂ .xfer2 { recordAnswer q r { s with transport := tr, reg := m, tick := k } with hi := u }) := by
  cases h with
  | held q t _ ht => exact .inl (transportTurn_silent ht).2.2
  | failed q e t _ ht =>
    obtain ⟨q', tr, m, k, hq, rfl, -, -⟩ := transportTurn_answered ht
    exact .inr ⟨q', _, tr, m, k, hq, .inl ⟨_, _, _, raiseBusError_eq _ _⟩⟩
  | finished q data t v _ _ ht =>
    obtain ⟨q', tr, m, k, hq, rfl, -, -⟩ := transportTurn_answered ht
    exact .inr ⟨q', _, tr, m, k, hq, .inl ⟨_, _, _, respondOk_eq _ _⟩⟩
  | second q₁ q₂ u t hs hi _ ht =>
    obtain ⟨q', tr, m, k, hq, rfl, -, -⟩ := transportTurn_answered ht
    exact .inr ⟨q', _, tr, m, k, hq, .inr ⟨u, q₂, rfl, hs, by simp [hi], rfl⟩⟩

/-- A waiting command leaves the handle, the latch and the moves to come as they were. -/
theorem Continued.frame {i : Instr} {s t : State} (h : Continued i s t) :
    t.owned = s.owned ∧ t.devaddr = s.devaddr ∧ t.cmd = s.cmd ∧ t.moves = s.moves := by
  obtain rfl | ⟨q, r, tr, m, k, -, ⟨st, ec, v, rfl⟩ | ⟨u, q₂, -, -, -, rfl⟩⟩ := h.turn
  · simp
  · simp
  · simp

/-- Only a command with a transaction in the sequencer's phase waits. -/
theorem Continued.transactions_ne_nil {i : Instr} {s t : State} (h : Continued i s t) : i.transactions s.devaddr ≠ [] := by
  intro hn
  cases h <;> simp_all

/-- `HI` is written with the first byte of a command of two transactions, and then the answer is recorded (R20). -/
theorem Continued.hi_changed {i : Instr} {s t : State} (h : Continued i s t) (hne : t.hi ≠ s.hi) :
    s.seq = .xfer1 ∧ t.seq = .xfer2 ∧ (i.transactions s.devaddr).length = 2 ∧
      ∃ q, s.req = some q ∧ t.log = s.log ++ [⟨q, .ok [t.hi]⟩] := by
  obtain rfl | ⟨q, r, tr, m, k, hq, ⟨st, ec, v, rfl⟩ | ⟨u, q₂, rfl, hs, hlen, rfl⟩⟩ := h.turn
  · exact absurd rfl hne
  · exact absurd rfl hne
  · exact ⟨hs, rfl, hlen, q, hq, rfl⟩

/-- A waiting command's turn leaves the sensor's mode, or records an answer to the outstanding request with its effect on the mode
(R33). -/
theorem Continued.pmode {i : Instr} {s t : State} (h : Continued i s t) :
    t.pmode = s.pmode ∨ ∃ q r, s.req = some q ∧ t.log = s.log ++ [⟨q, r⟩] ∧ t.pmode = sensorMode q r s.pmode := by
  obtain rfl | ⟨q, r, tr, m, k, hq, ⟨st, ec, v, rfl⟩ | ⟨u, q₂, rfl, -, -, rfl⟩⟩ := h.turn
  · exact .inl rfl
  · exact .inr ⟨q, r, hq, rfl, rfl⟩
  · exact .inr ⟨q, _, hq, rfl, rfl⟩

/-- What a step can do to the handle (R16, R17): a reset ends it, `NEW` begins one where there is none, `DROP` ends it, and every other
step leaves `OWNED` and `DEVADDR` as they were. -/
theorem Stepped.handle {s t : State} (h : Stepped s t) :
    (t.owned = s.owned ∧ t.devaddr = s.devaddr) ∨
    (t.owned = false ∧ ∃ rest, s.moves = .hostReset :: rest) ∨
    (s.seq = .idle ∧ ∃ w rest, s.moves = .present w :: rest ∧
      ((s.owned = false ∧ ∃ ad, decode w = .ok (.new ad)) ∨ (s.owned = true ∧ t.owned = false ∧ decode w = .ok .drop))) := by
  cases h with
  | idled => left; simp
  | continued i _ _ _ hc =>
    obtain ⟨ho, hd, -, -⟩ := hc.frame
    exact .inl ⟨by simpa using ho, by simpa using hd⟩
  | illegalWord => left; simp
  | accepted w rest i _ hs hm hw ha =>
    cases ha with
    | illegal => left; simp
    | constructed ad hi ho =>
      subst hi
      exact .inr (.inr ⟨hs, w, rest, hm, .inl ⟨by simpa using ho, ad, hw⟩⟩)
    | released hi ho =>
      subst hi
      exact .inr (.inr ⟨hs, w, rest, hm, .inr ⟨by simpa using ho, rfl, hw⟩⟩)
    | issued => left; simp
  | reset rest hm => exact .inr (.inl ⟨rfl, rest, hm⟩)
  | sampled => left; simp
  | poweredOn => left; simp

end Sys2Proof.Machine
end

section
/-!
SUPPORT. The invariant through the shared operations and the three inversions: an end of a command, an issue of a transaction, an
answer, and so acceptance, waiting and the step (R17 to R20, R34, R64, R73).
-/

namespace Sys2Proof.Machine

/-- The invariant says nothing of the moves to come, the sensor's mode, the transport or the counter. -/
theorem State.Inv.environment {s : State} (h : s.Inv) (p : PowerMode) {m : Memory} (tr : Transport) (mv : List Move) (k : Nat)
    (hm : m.wf = true) : ({ s with pmode := p, reg := m, transport := tr, moves := mv, tick := k } : State).Inv :=
  ⟨h.sequencer, h.handle, h.response, h.log, h.fresh, h.upper, hm⟩

theorem State.Inv.atTurn {s : State} (h : s.Inv) : s.atTurn.Inv := by
  rw [atTurn_eq]
  exact h.environment s.pmode s.transport _ s.tick h.memory

/-- A live handle's address is legal (R17). -/
theorem State.Inv.devaddr_legal {s : State} (h : s.Inv) (ho : s.owned = true) : DevAddr.legal s.devaddr = true := by
  simpa [State.handleOk, ho] using h.handle

/-- Every end of a command meets the invariant, if its response is legal (R64, R101, R104). -/
theorem endCommand_inv {s : State} {st ec : Byte} {v : Reading} (hh : s.handleOk = true) (hl : s.logOk = true)
    (hm : s.reg.wf = true) (hr : responseLegal (packResponse st ec v) = true) : (endCommand st ec v s).Inv :=
  ⟨rfl, hh, by simp [State.responseOk, hr], hl, rfl, rfl, hm⟩

theorem responseLegal_ok (v : Reading) : responseLegal (packResponse 0x00 0 v) = true := by simp [responseLegal]

theorem responseLegal_busError (e : BusErr) : responseLegal (packResponse 0x01 e.code 0) = true := by
  simp [responseLegal, busErr_code_ne_zero]

theorem responseLegal_illegal : responseLegal (packResponse 0x02 0 0) = true := by simp [responseLegal]

/-- An issue of the transaction of the latched command that the phase says puts the sequencer in step (R19, R34). -/
theorem issue_sequencerOk {i : Instr} {s : State} {q : BusRequest} {p : Phase} (hp : p ≠ .idle) (ho : s.owned = true)
    (hv : s.rspValid = false) (hd : decode s.cmd = .ok i) (hq : (i.transactions s.devaddr)[p.index]? = some q) :
    (issue q p s).sequencerOk = true := by
  cases p with
  | idle => exact absurd rfl hp
  | xfer1 => simp_all [State.sequencerOk, Phase.index]
  | xfer2 => simp_all [State.sequencerOk, Phase.index]

/-- A busy block's answer that fits: the handle, the trace and the register list of the state after it are still in order. -/
theorem State.Inv.answered {s t : State} {r : BusAnswer} (h : s.Inv) (hs : s.seq ≠ .idle) (ht : transportTurn s = .answered r t)
    (hf : ∀ q, s.req = some q → r.fits q = true) : t.handleOk = true ∧ t.logOk = true ∧ t.reg.wf = true := by
  obtain ⟨q, tr, m, k, hq, rfl, hm, -⟩ := transportTurn_answered ht
  obtain ⟨ho, -, i, q', -, hq', hi⟩ := h.busy hs
  obtain rfl : q = q' := Option.some.inj (hq.symm.trans hq')
  have hw : q.wellFormed = true := transactions_wellFormed (h.devaddr_legal ho) (List.mem_of_getElem? hi)
  have hl : (s.log.all fun t => t.req.wellFormed && t.answer.fits t.req) = true := h.log
  refine ⟨h.handle, ?_, hm h.memory⟩
  rw [State.logOk, recordAnswer_log, List.all_append, hl]
  simp [hw, hf q hq]

/-- The command that waits in a state of the invariant has its transaction outstanding. -/
theorem State.Inv.req_of_decode {s : State} {i : Instr} (h : s.Inv) (hs : s.seq ≠ .idle) (hd : decode s.cmd = .ok i) :
    s.req = (i.transactions s.devaddr)[s.seq.index]? := by
  obtain ⟨-, -, j, q, hj, hq, ht⟩ := h.busy hs
  obtain rfl : i = j := Except.ok.inj (hd.symm.trans hj)
  rw [hq, ht]

/-- The answer of a waiting command in a state of the invariant is to its own outstanding transaction. -/
theorem State.Inv.log_of_answered {i : Instr} {s t : State} {q : BusRequest} {r : BusAnswer} (h : s.Inv) (hs : s.seq ≠ .idle)
    (hd : decode s.cmd = .ok i) (hq : (i.transactions s.devaddr)[s.seq.index]? = some q)
    (ht : transportTurn s = .answered r t) : s.req = some q ∧ t.log = s.log ++ [⟨q, r⟩] := by
  have hreq : s.req = some q := (h.req_of_decode hs hd).trans hq
  obtain ⟨q', tr, m, k, hq', rfl, -, -⟩ := transportTurn_answered ht
  obtain rfl : q' = q := Option.some.inj (hq'.symm.trans hreq)
  exact ⟨hreq, rfl⟩

theorem Accepted.inv {i : Instr} {s t : State} (ha : Accepted i s t) (h : s.Inv) : t.Inv := by
  cases ha with
  | illegal => exact endCommand_inv h.handle h.log h.memory responseLegal_illegal
  | constructed ad => exact endCommand_inv (deviceAddress_legal ad) h.log h.memory (responseLegal_ok 0)
  | released => exact endCommand_inv rfl h.log h.memory (responseLegal_ok 0)
  | issued q hq ho =>
    exact ⟨issue_sequencerOk (by decide) ho rfl (decode_encode i) hq, h.handle, rfl, h.log, rfl, rfl, h.memory⟩

theorem Continued.inv {i : Instr} {s t : State} (hc : Continued i s t) (h : s.Inv) (hs : s.seq ≠ .idle)
    (hd : decode s.cmd = .ok i) : t.Inv := by
  have hreq := h.req_of_decode hs hd
  cases hc with
  | held q t _ ht =>
    obtain ⟨-, -, rfl⟩ := transportTurn_silent ht
    exact h.environment s.pmode s.transport s.moves _ h.memory
  | failed q e t _ ht =>
    obtain ⟨hh, hl, hm⟩ := h.answered hs ht fun _ _ => rfl
    exact endCommand_inv hh hl hm (responseLegal_busError e)
  | finished q data t v hq _ ht hlen =>
    obtain ⟨hh, hl, hm⟩ := h.answered hs ht fun q' hq' => by simp_all [BusAnswer.fits]
    exact endCommand_inv hh hl hm (responseLegal_ok v)
  | second q₁ q₂ u t hs₁ hi hn ht =>
    rw [hs₁, hi] at hreq
    obtain ⟨hh, hl, hm⟩ := h.answered hs ht fun q' hq' => by simp_all [BusAnswer.fits, Phase.index]
    obtain ⟨ho, hv, -⟩ := h.busy hs
    obtain ⟨q, tr, m, k, hq, rfl, -, -⟩ := transportTurn_answered ht
    obtain rfl : q₁ = q := by simpa [Phase.index, hq] using hreq.symm
    refine ⟨issue_sequencerOk (by decide) ho hv hd (by simp [hi, Phase.index]), hh, ?_, hl, rfl, ?_, hm⟩
    · simp [State.responseOk, hv]
    · simp [State.upperOk, hd, hi]

theorem resetBlock_inv {s : State} (hm : s.reg.wf = true) : (resetBlock s).Inv := by
  refine ⟨rfl, rfl, rfl, rfl, rfl, rfl, ?_⟩
  unfold resetBlock
  split
  · rfl
  · exact hm

theorem Stepped.inv {s t : State} (hst : Stepped s t) (h : s.Inv) : t.Inv := by
  cases hst with
  | idled => exact h.atTurn
  | continued i _ hs hd hc => exact hc.inv h.atTurn (by simpa using hs) (by simpa using hd)
  | illegalWord => exact endCommand_inv h.atTurn.handle h.atTurn.log h.atTurn.memory responseLegal_illegal
  | accepted w rest i _ _ _ _ ha => exact ha.inv h.atTurn
  | reset => exact resetBlock_inv h.atTurn.memory
  | sampled cells => exact h.atTurn.environment _ _ _ _ (Memory.wf_writeAll cells h.memory)
  | poweredOn => exact h.atTurn.environment _ _ _ _ Memory.wf_nil

/-- Settles O43, by the inversion of the step: each of its cases keeps the invariant (`Stepped.inv`). -/
theorem stepKeepsTheInvariant : Obligations.StepKeepsTheInvariant := by
  intro s t h hst
  exact (step_next hst).inv h

end Sys2Proof.Machine
end

section
/-!
The statements about the registers of the block, each by the inversion of a meaning or of the step (R16 to R20, R135).
-/

namespace Sys2Proof.Machine

/-- Settles O19, by the inversion of a meaning: acceptance in `IDLE` or the turn of a waiting command, each with its frame. -/
theorem commandsWriteOnlyTheirRegisters : Obligations.CommandsWriteOnlyTheirRegisters := by
  intro i s t h
  obtain ⟨hs, ha⟩ | ⟨hs, hc⟩ := exec_next h
  · cases ha with
    | illegal => simp
    | constructed ad hi => simp [hi]
    | released hi => simp [hi]
    | issued q hq => simp [hs, List.ne_nil_of_mem (List.mem_of_getElem? hq)]
  · obtain ⟨ho, hd, hcmd, hmv⟩ := hc.frame
    refine ⟨fun _ => hd, fun _ _ => ho, fun hne => ?_, fun hne => absurd hcmd hne,
      fun hn => absurd hn hc.transactions_ne_nil, hmv⟩
    obtain ⟨h₁, h₂, hlen, -⟩ := hc.hi_changed hne
    exact ⟨h₁, h₂, hlen⟩

/-- Settles O44, by the inversion of the step; the causes are those of `Accepted` and `Continued`. -/
theorem sequencerTransitions : Obligations.SequencerTransitions := by
  intro s t h hnr hst
  cases step_next hst with
  | idled hs => exact .inl ⟨by simp, by simp [hs]⟩
  | continued i _ hs hd hc =>
    have log_of {q r t'} hq ht :=
      h.atTurn.log_of_answered (q := q) (r := r) (t := t') (by simpa using hs) (by simpa using hd) hq ht
    cases hc with
    | held q _ _ ht =>
      obtain ⟨-, -, rfl⟩ := transportTurn_silent ht
      exact .inl (by simp)
    | failed q e t hq ht =>
      obtain ⟨hreq, hlog⟩ := log_of hq ht
      exact .inr (.inr (.inr ⟨hs, rfl, rfl, rfl, i, q, hd, by simpa using hreq, by simpa using hq,
        .inl ⟨e, by simpa using hlog, by simp⟩⟩))
    | finished q data t v hq hn ht hlen =>
      obtain ⟨hreq, hlog⟩ := log_of hq ht
      exact .inr (.inr (.inr ⟨hs, rfl, rfl, rfl, i, q, hd, by simpa using hreq, by simpa using hq,
        .inr ⟨data, by simpa using hlog, hlen, by simpa using hn, by simp⟩⟩))
    | second q₁ q₂ u t hs₁ hi _ ht =>
      obtain ⟨-, hlog⟩ := log_of (q := q₁) (by rw [hi, hs₁]; rfl) ht
      exact .inr (.inr (.inl ⟨by simpa using hs₁, rfl, i, q₁, q₂, u, hd, by simpa using hi, by simpa using hlog, rfl, rfl⟩))
  | illegalWord w rest e hs => exact .inl ⟨by simp [hs], fun hb => absurd hs hb⟩
  | accepted w rest i _ hs hm hw ha =>
    cases ha with
    | illegal => exact .inl ⟨by simp [hs], fun hb => absurd hs hb⟩
    | constructed => exact .inl ⟨by simp [hs], fun hb => absurd hs hb⟩
    | released => exact .inl ⟨by simp [hs], fun hb => absurd hs hb⟩
    | issued q hq ho =>
      exact .inr (.inl ⟨hs, rfl, by simpa using ho, w, rest, i, hm, hw, by simpa using encode_of_decode hw,
        by simpa using hq.symm, rfl⟩)
  | reset rest hm => exact absurd hm (hnr rest)
  | sampled => exact .inl (by simp)
  | poweredOn => exact .inl (by simp)

/-- Settles O45: a step from a handle to a handle is none of those that change it (`Stepped.handle`). -/
theorem deviceAddressIsImmutable : Obligations.DeviceAddressIsImmutable := by
  intro s t hst hs ht
  obtain ⟨-, hd⟩ | ⟨hn, -⟩ | ⟨-, w, rest, -, ⟨hn, -⟩ | ⟨-, hn, -⟩⟩ := (step_next hst).handle
  · exact hd
  · simp [hn] at ht
  · simp [hn] at hs
  · simp [hn] at ht

/-- Settles O46, by what a step can do to the handle (`Stepped.handle`). -/
theorem ownershipChangesOnlyByItsCommands : Obligations.OwnershipChangesOnlyByItsCommands := by
  intro s t hst hne
  obtain ⟨ho, -⟩ | ⟨-, hr⟩ | ⟨hs, w, rest, hm, hnew | ⟨ho, -, hw⟩⟩ := (step_next hst).handle
  · exact absurd ho hne
  · exact .inl hr
  · exact .inr ⟨hs, w, rest, hm, .inl hnew⟩
  · exact .inr ⟨hs, w, rest, hm, .inr ⟨ho, hw⟩⟩

/-- Settles O47: of the steps other than a reset only a waiting command's turn can write `HI` (`Continued.hi_changed`). -/
theorem upperByteIsWrittenOnlyByItsRead : Obligations.UpperByteIsWrittenOnlyByItsRead := by
  intro s t hst hne
  cases step_next hst with
  | idled => simp at hne
  | continued i _ _ _ hc =>
    obtain ⟨hs, ht, -, q, hq, hlog⟩ := hc.hi_changed (by simpa using hne)
    exact .inr ⟨by simpa using hs, ht, q, by simpa using hq, by simpa using hlog⟩
  | illegalWord => simp at hne
  | accepted w rest i _ _ _ _ ha =>
    obtain ⟨hhi, -⟩ := ha.frame
    exact absurd (by simpa using hhi) hne
  | reset rest hm => exact .inl ⟨rest, hm⟩
  | sampled => simp at hne
  | poweredOn => simp at hne

/-- Settles O48: without a handle the block is idle with nothing outstanding, and the step leaves request and trace so. -/
theorem noTransactionWithoutAHandle : Obligations.NoTransactionWithoutAHandle := by
  intro s t h ho hnr hst
  have hs : s.seq = .idle := by
    by_contra hb
    simp [(h.busy hb).1] at ho
  have hreq : s.req = none := h.idle_req hs
  suffices t.req = none ∧ t.log = s.log by
    obtain ⟨ht, hlog⟩ := this
    exact ⟨ht, by rw [State.trace, State.trace, ht, hlog, hreq]⟩
  cases step_next hst with
  | idled => simp [hreq]
  | continued i _ hb => exact absurd hs hb
  | illegalWord => simp
  | accepted w rest i _ _ _ _ ha =>
    cases ha with
    | illegal => simp
    | constructed => simp
    | released => simp
    | issued q _ hown => simp [ho] at hown
  | reset rest hm => exact absurd hm (hnr rest)
  | sampled => simp [hreq]
  | poweredOn => simp [hreq]

end Sys2Proof.Machine
end

section
/-!
The sensor's mode (R33, D23).
-/

namespace Sys2Proof.Machine

/-- An answered transaction takes the sensor for `LowNoise` only as a successful write of the pattern (R33). -/
theorem sensorMode_eq_lowNoise {q : BusRequest} {r : BusAnswer} {p : PowerMode} (h : sensorMode q r p = .lowNoise) :
    p = .lowNoise ∨ ∃ dev data, q = .busWrite dev [0x1F, 0x03] ∧ r = .ok data := by
  unfold sensorMode at h
  split at h
  · split at h
    · rename_i dev bytes data hb
      exact .inr ⟨dev, data, by rw [hb]; rfl, rfl⟩
    · cases h
  · cases h
  · exact .inl h

/-- No answered transaction takes the sensor for `Idle` (R33). -/
theorem sensorMode_eq_idle {q : BusRequest} {r : BusAnswer} {p : PowerMode} (h : sensorMode q r p = .idle) : p = .idle := by
  unfold sensorMode at h
  split at h
  · split at h <;> cases h
  · cases h
  · exact h

/-- The mode after any answered write but a successful one of the pattern (R33, D23; assumption 9). -/
theorem sensorMode_write_unknown {dev : DevAddr} {a : RegAddr} {v : Byte} {r : BusAnswer} (p : PowerMode)
    (h : ¬(a = 0x1F#8 ∧ v = 0x03#8 ∧ ∃ data, r = .ok data)) : sensorMode (.busWrite dev [a, v]) r p = .unknown := by
  cases r with
  | ok data => simpa [sensorMode, pwrMgmt, pmLowNoise] using h
  | err e => rfl

/-- What a step can do to the sensor's mode (R33, R123): leave it, forget it, power the sensor on, or record an answer. -/
theorem Stepped.pmode {s t : State} (h : Stepped s t) :
    t.pmode = s.pmode ∨ t.pmode = .unknown ∨ (t.pmode = .idle ∧ ∃ rest, s.moves = .sensorPowerOn :: rest) ∨
      ∃ q r, s.req = some q ∧ t.log = s.log ++ [⟨q, r⟩] ∧ t.pmode = sensorMode q r s.pmode := by
  cases h with
  | idled => exact .inl (by simp)
  | continued i _ _ _ hc =>
    obtain hp | ⟨q, r, hq, hlog, hp⟩ := hc.pmode
    · exact .inl (by simpa using hp)
    · exact .inr (.inr (.inr ⟨q, r, by simpa using hq, by simpa using hlog, by simpa using hp⟩))
  | illegalWord => exact .inl (by simp)
  | accepted w rest i _ _ _ _ ha =>
    obtain ⟨-, hp⟩ := ha.frame
    exact .inl (by simpa using hp)
  | reset =>
    unfold resetBlock
    split
    · exact .inr (.inl rfl)
    · exact .inl (by simp)
  | sampled => exact .inl (by simp)
  | poweredOn rest hm => exact .inr (.inr (.inl ⟨rfl, rest, hm⟩))

/-- Settles O51, by what a step can do to the mode (`Stepped.pmode`) and what an answered write makes it
(`sensorMode_write_unknown`). -/
theorem sensorModeIsKnownOnlyFromItsCauses : Obligations.SensorModeIsKnownOnlyFromItsCauses := by
  refine ⟨fun s t hst ht => ?_, fun s t hst ht => ?_, fun s t dev a v r hq ht => ?_⟩
  · obtain hp | hp | ⟨hp, -⟩ | ⟨q, r, hq, hlog, hp⟩ := (step_next hst).pmode
    · exact .inl (hp.symm.trans ht)
    · simp [hp] at ht
    · simp [hp] at ht
    · obtain hl | ⟨dev, data, rfl, rfl⟩ := sensorMode_eq_lowNoise (hp.symm.trans ht)
      · exact .inl hl
      · exact .inr ⟨dev, data, hq, hlog⟩
  · obtain hp | hp | ⟨-, hm⟩ | ⟨q, r, -, -, hp⟩ := (step_next hst).pmode
    · exact .inl (hp.symm.trans ht)
    · simp [hp] at ht
    · exact .inr hm
    · exact .inl (sensorMode_eq_idle (hp.symm.trans ht))
  · obtain ⟨q, tr, m, k, hq', rfl, -, -⟩ := transportTurn_answered ht
    obtain rfl : q = .busWrite dev [a, v] := Option.some.inj (hq'.symm.trans hq)
    rw [recordAnswer_pmode]
    refine ⟨?_, sensorMode_write_unknown _⟩
    rintro ⟨rfl, rfl, data, rfl⟩
    rfl

end Sys2Proof.Machine
end

section
/-!
The last response and the trace are never read (R23, R56, R108): every operation, from the shared ones up to the step and the run, has
the same outcome from two states that differ only there, but for those two fields.
-/

namespace Sys2Proof.Machine

/-- The state without its last response and its answered transactions. -/
def State.withoutHistory (s : State) : State := { s with rsp := 0, log := [] }

/-- The two states are alike but for the last response and the trace. -/
def SameButHistory (s t : State) : Prop := ∃ r l, s = { t with rsp := r, log := l }

/-- The operation reads neither the last response nor the trace: from states alike but for them it ends alike but for them. -/
def IgnoresHistory (f : State → Outcome) : Prop :=
  ∀ s t, SameButHistory s t → mapNext State.withoutHistory (f s) = mapNext State.withoutHistory (f t)

theorem sameButHistory_of_withoutHistory_eq {s t : State} (h : s.withoutHistory = t.withoutHistory) : SameButHistory s t := by
  refine ⟨s.rsp, s.log, ?_⟩
  cases s
  cases t
  simp_all [State.withoutHistory]

theorem SameButHistory.seq_eq {s t : State} (h : SameButHistory s t) : s.seq = t.seq := by
  obtain ⟨r, l, rfl⟩ := h
  rfl

theorem SameButHistory.ready_eq {s t : State} (h : SameButHistory s t) : s.ready = t.ready := by
  obtain ⟨r, l, rfl⟩ := h
  rfl

theorem SameButHistory.cmd_eq {s t : State} (h : SameButHistory s t) : s.cmd = t.cmd := by
  obtain ⟨r, l, rfl⟩ := h
  rfl

theorem SameButHistory.moves_eq {s t : State} (h : SameButHistory s t) : s.moves = t.moves := by
  obtain ⟨r, l, rfl⟩ := h
  rfl

theorem SameButHistory.takeMove {s t : State} (h : SameButHistory s t) (rest : List Move) :
    SameButHistory { s with moves := rest } { t with moves := rest } := by
  obtain ⟨r, l, rfl⟩ := h
  exact ⟨r, l, rfl⟩

/-- A turn of the transport that leaves another response and another trace. -/
def Turn.withHistory (r : ResponseWord) (l : List Transaction) : Turn → Turn
  | .silent t => .silent { t with rsp := r, log := l }
  | .answered a t => .answered a { t with rsp := r, log := l }
  | .noRequest => .noRequest
  | .refused why => .refused why

/-- The transport's turn depends on neither: it leaves the response, and the trace grown by the same answer, if any. -/
theorem transportTurn_history (s : State) (r : ResponseWord) (l : List Transaction) :
    ∃ l', transportTurn { s with rsp := r, log := l } = (transportTurn s).withHistory r l' := by
  cases hq : s.req with
  | none => exact ⟨l, by simp [transportTurn, hq, Turn.withHistory]⟩
  | some q =>
    cases ht : s.transport with
    | oracle =>
      cases ha : oracleAnswer s.tick q with
      | none => exact ⟨l, by simp [transportTurn, hq, ht, ha, Turn.withHistory]⟩
      | some a => exact ⟨l ++ [⟨q, a⟩], by simp [transportTurn, hq, ht, ha, Turn.withHistory, recordAnswer]⟩
    | scripted script =>
      cases script with
      | nil => exact ⟨l, by simp [transportTurn, hq, ht, Turn.withHistory]⟩
      | cons a rest => exact ⟨l ++ [⟨q, a⟩], by simp [transportTurn, hq, ht, Turn.withHistory, recordAnswer]⟩
    | ideal dev₀ =>
      cases ha : idealAnswer dev₀ q s.reg s.tick with
      | none => exact ⟨l, by simp [transportTurn, hq, ht, ha, Turn.withHistory]⟩
      | some a => exact ⟨l ++ [⟨q, a.1⟩], by simp [transportTurn, hq, ht, ha, Turn.withHistory, recordAnswer]⟩

/-- Waiting reads neither, if what follows it does not (R12). -/
theorem ignoresHistory_await {k : List Byte → State → Outcome} (hk : ∀ data, IgnoresHistory (k data)) :
    IgnoresHistory fun s => await s k := by
  rintro _ t ⟨r, l, rfl⟩
  obtain ⟨l', hl'⟩ := transportTurn_history t r l
  simp only [await, hl']
  cases transportTurn t with
  | silent u => rfl
  | noRequest => rfl
  | refused why => rfl
  | answered a u =>
    cases a with
    | ok data => exact hk data _ u ⟨r, l', rfl⟩
    | err e => rfl

theorem ignoresHistory_acceptTransfer (w : CommandWord) (q : DevAddr → BusRequest) :
    IgnoresHistory fun s => acceptTransfer w (q s.devaddr) s := by
  rintro _ t ⟨r, l, rfl⟩
  simp only [acceptTransfer]
  split <;> rfl

theorem ignoresHistory_runWrite (w : CommandWord) (reg : RegAddr) (value : Byte) : IgnoresHistory (runWrite w reg value) := by
  intro s t h
  unfold runWrite
  rw [h.seq_eq]
  cases t.seq with
  | idle => exact ignoresHistory_acceptTransfer w (fun d => memWrite d reg value) s t h
  | xfer1 =>
    refine ignoresHistory_await (fun data => ?_) s t h
    rintro _ t ⟨r, l, rfl⟩
    split <;> rfl
  | xfer2 => rfl

theorem ignoresHistory_runRead (w : CommandWord) (reg : RegAddr) : IgnoresHistory (runRead w reg) := by
  intro s t h
  unfold runRead
  rw [h.seq_eq]
  cases t.seq with
  | idle => exact ignoresHistory_acceptTransfer w (fun d => memRead d reg) s t h
  | xfer1 =>
    refine ignoresHistory_await (fun data => ?_) s t h
    rintro _ t ⟨r, l, rfl⟩
    split <;> rfl
  | xfer2 => rfl

theorem ignoresHistory_runComposedRead (w : CommandWord) (upper lower : RegAddr) :
    IgnoresHistory (runComposedRead w upper lower) := by
  intro s t h
  unfold runComposedRead
  rw [h.seq_eq]
  cases t.seq with
  | idle => exact ignoresHistory_acceptTransfer w (fun d => memRead d upper) s t h
  | xfer1 =>
    refine ignoresHistory_await (fun data => ?_) s t h
    rintro _ t ⟨r, l, rfl⟩
    split <;> rfl
  | xfer2 =>
    refine ignoresHistory_await (fun data => ?_) s t h
    rintro _ t ⟨r, l, rfl⟩
    split <;> rfl

theorem ignoresHistory_execNew (ad : AddrSelect) : IgnoresHistory (execNew ad) := by
  intro s t h
  unfold execNew
  rw [h.seq_eq]
  split
  · obtain ⟨r, l, rfl⟩ := h
    dsimp only
    split <;> rfl
  · rfl
  · rfl

theorem ignoresHistory_execDrop : IgnoresHistory execDrop := by
  intro s t h
  unfold execDrop
  rw [h.seq_eq]
  split
  · obtain ⟨r, l, rfl⟩ := h
    dsimp only
    split <;> rfl
  · rfl
  · rfl

theorem ignoresHistory_exec (i : Instr) : IgnoresHistory (exec i) := by
  cases i with
  | new ad => exact ignoresHistory_execNew ad
  | drop => exact ignoresHistory_execDrop
  | writeRegister reg value => exact ignoresHistory_runWrite _ _ _
  | readRegister reg => exact ignoresHistory_runRead _ _
  | readRegisterAsU16 upper lower => exact ignoresHistory_runComposedRead _ _ _
  | setAccelLowNoiseMode => exact ignoresHistory_runWrite _ _ _
  | readAccelX => exact ignoresHistory_runComposedRead _ _ _
  | readAccelY => exact ignoresHistory_runComposedRead _ _ _
  | readAccelZ => exact ignoresHistory_runComposedRead _ _ _

theorem ignoresHistory_acceptWord (w : CommandWord) : IgnoresHistory (acceptWord w) := by
  intro s t h
  unfold acceptWord
  split
  · exact ignoresHistory_exec _ s t h
  · obtain ⟨r, l, rfl⟩ := h
    rfl

theorem ignoresHistory_sequencerTurn : IgnoresHistory sequencerTurn := by
  intro s t h
  unfold sequencerTurn
  rw [h.seq_eq, h.cmd_eq]
  split
  · obtain ⟨r, l, rfl⟩ := h
    rfl
  all_goals
    split
    · exact ignoresHistory_exec _ s t h
    · rfl

theorem ignoresHistory_step : IgnoresHistory step := by
  intro s t h
  unfold step nextMove
  rw [h.moves_eq, h.ready_eq]
  split
  · exact ignoresHistory_sequencerTurn s t h
  · rename_i w rest _
    split
    · exact ignoresHistory_acceptWord w _ _ (h.takeMove rest)
    · exact ignoresHistory_sequencerTurn s t h
  · obtain ⟨r, l, rfl⟩ := h
    rfl
  · rename_i rest _
    exact ignoresHistory_sequencerTurn _ _ (h.takeMove rest)
  · obtain ⟨r, l, rfl⟩ := h
    rfl
  · obtain ⟨r, l, rfl⟩ := h
    rfl

theorem ignoresHistory_run (n : Nat) : IgnoresHistory (run n) := by
  induction n with
  | zero =>
    rintro _ t ⟨r, l, rfl⟩
    rfl
  | succ n ih =>
    intro s t h
    have hstep := ignoresHistory_step s t h
    simp only [run]
    cases hs : step s with
    | next s' =>
      cases ht : step t with
      | next t' =>
        rw [hs, ht] at hstep
        exact ih s' t' (sameButHistory_of_withoutHistory_eq (Host.Outcome.next.inj hstep))
      | fault r => simp [hs, ht, mapNext] at hstep
      | refused r => simp [hs, ht, mapNext] at hstep
    | fault r => cases ht : step t <;> simp_all [mapNext]
    | refused r => cases ht : step t <;> simp_all [mapNext]

/-- Settles O54, by induction on the length of the run (`ignoresHistory_run`). -/
theorem responseAndTraceAreNeverRead : Obligations.ResponseAndTraceAreNeverRead := by
  intro n s r l
  exact ignoresHistory_run n _ s ⟨r, l, rfl⟩

end Sys2Proof.Machine
end

section
/-!
SUPPORT. What the ideal device does with each kind of request (R58), what the scripted mock bus does at its end (R57), and what that
makes of the sensor's registers and mode across a meaning's step (R37, R46).
-/

namespace Sys2Proof.Machine

/-! ## The ideal device, request by request (R58) -/

/-- A write to the device is answered `Ok`, and the byte is held. -/
theorem idealAnswer_write (dev : DevAddr) (a : RegAddr) (v : Byte) (m : Memory) (k : Nat) :
    idealAnswer dev (.busWrite dev [a, v]) m k = some (.ok [], m.write a.toNat v, k) := by
  simp [idealAnswer, BusRequest.dev]

/-- A read of a register whose byte is known is answered with it. -/
theorem idealAnswer_read_known {dev : DevAddr} {a : RegAddr} {m : Memory} {d : Byte} (k : Nat) (h : m.read a.toNat = some d) :
    idealAnswer dev (.busWriteRead dev [a] 1) m k = some (.ok [d], m, k) := by
  simp [idealAnswer, BusRequest.dev, h]

/-- A read of a register that nothing has set is answered with some byte, which is then held (assumption 11). -/
theorem idealAnswer_read_unset {dev : DevAddr} {a : RegAddr} {m : Memory} (k : Nat) (h : m.read a.toNat = none) :
    ∃ d, idealAnswer dev (.busWriteRead dev [a] 1) m k = some (.ok [d], m.write a.toNat d, k + 1) := by
  simp [idealAnswer, BusRequest.dev, h]

/-- A request to another address is not acknowledged. -/
theorem idealAnswer_elsewhere {dev₀ : DevAddr} {q : BusRequest} (m : Memory) (k : Nat) (h : q.dev ≠ dev₀) :
    idealAnswer dev₀ q m k = some (.err .noAcknowledge, m, k) := by
  simp [idealAnswer, h]

/-- Any request but a write to the device leaves every known register as it was. -/
theorem idealAnswer_keeps_known {dev₀ : DevAddr} {q : BusRequest} {m m' : Memory} {k k' : Nat} {r : BusAnswer} {b : Nat} {d : Byte}
    (h : idealAnswer dev₀ q m k = some (r, m', k')) (hq : ∀ a v, q ≠ .busWrite dev₀ [a, v]) (hb : m.read b = some d) :
    m'.read b = some d := by
  unfold idealAnswer at h
  split at h
  · rename_i hdev
    split at h
    · rename_i dev a v
      exact absurd (by rw [← hdev]; rfl) (hq a v)
    · rename_i dev a
      split at h
      · cases h; exact hb
      · rename_i hunset
        cases h
        have hne : b ≠ a.toNat := by rintro rfl; simp [hunset] at hb
        rw [Memory.read_write_other _ _ hne, hb]
    · cases h
  · cases h; exact hb

/-- An answer of the ideal device is the one its registers give to the outstanding request, and leaves the registers it says. -/
theorem transportTurn_ideal_answered {s t : State} {dev₀ : DevAddr} {r : BusAnswer} (ht : s.transport = .ideal dev₀)
    (h : transportTurn s = .answered r t) :
    ∃ q k, s.req = some q ∧ idealAnswer dev₀ q s.reg s.tick = some (r, t.reg, k) := by
  cases hq : s.req with
  | none => simp [transportTurn, hq] at h
  | some q =>
    cases ha : idealAnswer dev₀ q s.reg s.tick with
    | none => simp [transportTurn, hq, ht, ha] at h
    | some x =>
      obtain ⟨r', m, k⟩ := x
      rw [transportTurn_ideal hq ht ha] at h
      cases h
      exact ⟨q, k, rfl, ha⟩

/-! ## The end of a script (R57) -/

/-- The scripted mock bus with no entry left refuses a request. -/
theorem transportTurn_scripted_nil {s : State} {q : BusRequest} (hq : s.req = some q) (ht : s.transport = .scripted []) :
    transportTurn s = .refused .scriptExhausted := by
  simp [transportTurn, hq, ht]

/-- A refusal by the transport is the waiting command's. -/
theorem await_refused {s : State} {why : Refusal} {k : List Byte → State → Outcome} (h : transportTurn s = .refused why) :
    await s k = .refused why := by simp [await, h]

/-! ## The registers across a meaning's step (R37, R46) -/

/-- Acceptance reaches neither the sensor's registers nor its mode. -/
theorem Accepted.sensor {i : Instr} {s t : State} (h : Accepted i s t) : t.reg = s.reg ∧ t.pmode = s.pmode := by
  cases h <;> simp

/-- A waiting command's turn against the ideal device leaves the registers as the answer to the outstanding request does. -/
theorem Continued.ideal_answered {i : Instr} {s t : State} {dev₀ : DevAddr} (h : Continued i s t) (ht : s.transport = .ideal dev₀) :
    ∃ q r k, s.req = some q ∧ idealAnswer dev₀ q s.reg s.tick = some (r, t.reg, k) := by
  have answered {r u} (hu : transportTurn s = .answered r u) (hreg : t.reg = u.reg) :
      ∃ q r k, s.req = some q ∧ idealAnswer dev₀ q s.reg s.tick = some (r, t.reg, k) := by
    obtain ⟨q, k, hq, ha⟩ := transportTurn_ideal_answered ht hu
    exact ⟨q, r, k, hq, hreg ▸ ha⟩
  cases h with
  | held _ _ _ hu => simp [(transportTurn_silent hu).1] at ht
  | failed _ _ _ _ hu => exact answered hu rfl
  | finished _ _ _ _ _ _ hu => exact answered hu rfl
  | second _ _ _ _ _ _ _ hu => exact answered hu rfl

end Sys2Proof.Machine
end

section
/-!
SUPPORT. A composed read of two registers against the ideal device at the handle's address, step by step (R51, R85).
-/

namespace Sys2Proof.Machine

/-- Both registers of a pair rewritten at once read as rewritten. -/
theorem Memory.read_writeAll_pair (m : Memory) {a b : RegAddr} (v w : Byte) (hab : a ≠ b) :
    (m.writeAll [(a, v), (b, w)]).read a.toNat = some v ∧ (m.writeAll [(a, v), (b, w)]).read b.toNat = some w := by
  have hne : a.toNat ≠ b.toNat := fun h => hab (BitVec.eq_of_toNat_eq h)
  simp [Memory.writeAll, Memory.read_write_other _ _ hne]

/-- A run of four steps. -/
theorem run_four {s s₁ s₂ s₃ s₄ : State} (e₁ : step s = .next s₁) (e₂ : step s₁ = .next s₂) (e₃ : step s₂ = .next s₃)
    (e₄ : step s₃ = .next s₄) : run 4 s = .next s₄ := by
  rw [run_next _ e₁, run_next _ e₂, run_next _ e₃, run_next _ e₄, run_zero]

/-- The command reads the pair `a`, `b` from an ideal device at the handle's address and waits in phase `p` for the answer to the
transaction of that phase. -/
structure ReadsPair (i : Instr) (a b : RegAddr) (p : Phase) (s : State) : Prop where
  transactions : i.transactions s.devaddr = [.busWriteRead s.devaddr [a] 1, .busWriteRead s.devaddr [b] 1]
  phase : s.seq = p
  latched : decode s.cmd = .ok i
  outstanding : s.req = (i.transactions s.devaddr)[p.index]?
  device : s.transport = .ideal s.devaddr

variable {i : Instr} {a b : RegAddr} {p : Phase} {s : State} {rest : List Move}

/-- Acceptance begins the read and leaves the registers. -/
theorem ReadsPair.of_present (hi : i.transactions s.devaddr = [.busWriteRead s.devaddr [a] 1, .busWriteRead s.devaddr [b] 1])
    (hs : s.seq = .idle) (ho : s.owned = true) (hd : s.transport = .ideal s.devaddr)
    (hm : s.moves = .present (encode i) :: rest) :
    ∃ t, step s = .next t ∧ ReadsPair i a b .xfer1 t ∧ t.reg = s.reg ∧ t.moves = rest :=
  ⟨_, step_present hs ho (by rw [hi]; rfl) (decode_encode i) hm, ⟨hi, rfl, decode_encode i, by simp [hi, Phase.index], hd⟩, rfl, rfl⟩

/-- A sample changes the registers under the read and nothing of the read itself. -/
theorem ReadsPair.sample (h : ReadsPair i a b p s) {cells : List (RegAddr × Byte)} (hm : s.moves = .sample cells :: rest) :
    ∃ t, step s = .next t ∧ ReadsPair i a b p t ∧ t.reg = s.reg.writeAll cells ∧ t.hi = s.hi ∧ t.moves = rest :=
  ⟨{ s with moves := rest, reg := s.reg.writeAll cells }, by simp [step, nextMove, hm],
    ⟨h.transactions, h.phase, h.latched, h.outstanding, h.device⟩, rfl, rfl, rfl⟩

/-- The first transaction takes the byte of `a` to `HI`. -/
theorem ReadsPair.first (h : ReadsPair i a b .xfer1 s) {u : Byte} (hu : s.reg.read a.toNat = some u)
    (hm : s.moves = .transport :: rest) :
    ∃ t, step s = .next t ∧ ReadsPair i a b .xfer2 t ∧ t.reg = s.reg ∧ t.hi = u ∧ t.moves = rest := by
  obtain ⟨hi, hs, hl, hq, hd⟩ := h
  have ht := transportTurn_ideal (s := { s with moves := rest }) (by rw [hq, hi]; rfl) hd (idealAnswer_read_known s.tick hu)
  refine ⟨_, (step_transport (by simp [hs]) hl hm).trans (exec_first hi hs ht), ⟨?_, ?_, ?_, ?_, ?_⟩, ?_⟩
  all_goals simp [hi, hl, hd, Phase.index]

/-- The second transaction ends the command with `HI` and the byte of `b`. -/
theorem ReadsPair.second (h : ReadsPair i a b .xfer2 s) {l : Byte} (hv : s.reg.read b.toNat = some l)
    (hm : s.moves = .transport :: rest) :
    ∃ t, step s = .next t ∧ t.rsp = 0x0000#16 ++ s.hi ++ l ∧ t.rspValid = true ∧ t.moves = rest := by
  obtain ⟨hi, hs, hl, hq, hd⟩ := h
  have ht := transportTurn_ideal (s := { s with moves := rest }) (by rw [hq, hi]; rfl) hd (idealAnswer_read_known s.tick hv)
  exact ⟨_, (step_transport (by simp [hs]) hl hm).trans (exec_second hi hs ht), packResponse_compose s.hi l, rfl, rfl⟩

end Sys2Proof.Machine
end

section
/-!
The statements about the sensor's memory and the transactions that reach it (20_memory.md).
-/

namespace Sys2Proof.Machine

/-- Settles O24: each run is followed by the steps of `ReadsPair`, with the sample where the schedule has it. -/
theorem composedReadsCanBeTorn : Obligations.ComposedReadsCanBeTorn := by
  intro i s a b h₀ l₀ h₁ l₁ later hi hab hs ho hd ha hb
  have pair (m : Memory) := m.read_writeAll_pair h₁ l₁ hab
  refine ⟨fun hm => ?_, fun hm => ?_, fun hm => ?_⟩
  · obtain ⟨s₁, e₁, r₁, g₁, m₁⟩ := ReadsPair.of_present hi hs ho hd hm
    obtain ⟨s₂, e₂, r₂, g₂, -, m₂⟩ := r₁.sample m₁
    obtain ⟨s₃, e₃, r₃, g₃, u₃, m₃⟩ := r₂.first (by rw [g₂]; exact (pair _).1) m₂
    obtain ⟨s₄, e₄, hr, hv, -⟩ := r₃.second (by rw [g₃, g₂]; exact (pair _).2) m₃
    exact ⟨s₄, run_four e₁ e₂ e₃ e₄, by rw [hr, u₃], hv⟩
  · obtain ⟨s₁, e₁, r₁, g₁, m₁⟩ := ReadsPair.of_present hi hs ho hd hm
    obtain ⟨s₂, e₂, r₂, g₂, u₂, m₂⟩ := r₁.first (by rw [g₁]; exact ha) m₁
    obtain ⟨s₃, e₃, r₃, g₃, u₃, m₃⟩ := r₂.sample m₂
    obtain ⟨s₄, e₄, hr, hv, -⟩ := r₃.second (by rw [g₃]; exact (pair _).2) m₃
    exact ⟨s₄, run_four e₁ e₂ e₃ e₄, by rw [hr, u₃, u₂], hv⟩
  · obtain ⟨s₁, e₁, r₁, g₁, m₁⟩ := ReadsPair.of_present hi hs ho hd hm
    obtain ⟨s₂, e₂, r₂, g₂, u₂, m₂⟩ := r₁.first (by rw [g₁]; exact ha) m₁
    obtain ⟨s₃, e₃, hr, hv, m₃⟩ := r₂.second (by rw [g₂, g₁]; exact hb) m₂
    obtain ⟨s₄, e₄, -, -, -, -, -, -, hr', hv', -⟩ := step_sample_fields m₃
    exact ⟨s₄, run_four e₁ e₂ e₃ e₄, by rw [hr', hr, u₂], by rw [hv', hv]⟩

/-- Settles O20: acceptance does not reach the sensor, and a turn against the ideal device leaves the registers its answer leaves. -/
theorem commandsStoreOnlyWhereTheyWrite : Obligations.CommandsStoreOnlyWhereTheyWrite := by
  intro i s t h
  obtain ⟨hs, hacc⟩ | ⟨hs, hc⟩ := exec_next h
  · exact ⟨fun _ => hacc.sensor, fun _ _ _ hb => absurd hs hb, fun _ hb => absurd hs hb⟩
  · refine ⟨fun hidle => absurd hidle hs, fun dev₀ a v _ hd hreq => ?_, fun dev₀ _ hd hno b d hb => ?_⟩
    · obtain ⟨q, r, k, hq, hans⟩ := hc.ideal_answered hd
      obtain rfl : q = .busWrite dev₀ [a, v] := Option.some.inj (hq.symm.trans hreq)
      have hreg : s.reg.write a.toNat v = t.reg := by
        simpa [idealAnswer_write] using congrArg (Option.map fun x => x.2.1) hans
      rw [← hreg]
      exact ⟨Memory.read_write_same _ _ _, fun b hb => Memory.read_write_other _ _ hb⟩
    · obtain ⟨q, r, k, hq, hans⟩ := hc.ideal_answered hd
      exact idealAnswer_keeps_known hans (fun a v hw => hno a v (hw ▸ hq)) hb

/-- Settles O49: only acceptance in `IDLE` issues where nothing is outstanding, and a waiting command's turn (`Continued.turn`) leaves
the trace, ends with the answer, or issues the next transaction on a byte. -/
theorem oneTransactionAtATime : Obligations.OneTransactionAtATime := by
  intro s t hnr h hst
  have same_trace (hreq : t.req = s.req) (hlog : t.log = s.log) : t.trace = s.trace := by
    rw [State.trace, State.trace, hreq, hlog]
  cases step_next hst with
  | idled => exact .inl (same_trace (by simp) (by simp))
  | continued i _ hs hd hc =>
    obtain rfl | ⟨q, r, tr, m, k, hq, ⟨st, ec, v, rfl⟩ | ⟨u, q₂, rfl, -, -, rfl⟩⟩ := hc.turn
    · exact .inl (same_trace (by simp) (by simp))
    · exact .inr (.inr (.inl ⟨q, r, by simpa using hq, by simp⟩))
    · exact .inr (.inr (.inr ⟨q, u, q₂, by simpa using hq, by simp⟩))
  | illegalWord w rest e hs => exact .inl (same_trace (by simp [h.idle_req hs]) (by simp))
  | accepted w rest i _ hs _ _ ha =>
    have hreq := h.idle_req hs
    cases ha with
    | illegal => exact .inl (same_trace (by simp [hreq]) (by simp))
    | constructed => exact .inl (same_trace (by simp [hreq]) (by simp))
    | released => exact .inl (same_trace (by simp [hreq]) (by simp))
    | issued q => exact .inr (.inl ⟨hreq, q, by simp [State.trace, hreq]⟩)
  | reset rest hm => exact absurd hm (hnr rest)
  | sampled => exact .inl (same_trace (by simp) (by simp))
  | poweredOn => exact .inl (same_trace (by simp) (by simp))

/-- Settles O52, by the ideal device's answer to each kind of request. -/
theorem idealDeviceHoldsWhatIsWritten : Obligations.IdealDeviceHoldsWhatIsWritten := by
  intro s dev₀ dev a ht
  refine ⟨?_, ?_, fun q hq hne => ⟨_, transportTurn_ideal hq ht (idealAnswer_elsewhere _ _ hne), rfl⟩⟩
  · rintro v hq rfl
    exact ⟨_, transportTurn_ideal hq ht (idealAnswer_write dev a v _ _), Memory.read_write_same _ _ _,
      fun b hb => Memory.read_write_other _ _ hb⟩
  · rintro hq rfl
    cases hr : s.reg.read a.toNat with
    | some d =>
      exact ⟨d, _, transportTurn_ideal hq ht (idealAnswer_read_known _ hr), hr, fun _ => Option.some.inj, fun _ _ => rfl⟩
    | none =>
      obtain ⟨d, hd⟩ := idealAnswer_read_unset (dev := dev) s.tick hr
      exact ⟨d, _, transportTurn_ideal hq ht hd, Memory.read_write_same _ _ _, fun _ => nofun,
        fun b hb => Memory.read_write_other _ _ hb⟩

/-- Settles O56: the move's own step, and what setting several registers leaves of each. -/
theorem sensorMovesLeaveTheBlock : Obligations.SensorMovesLeaveTheBlock := by
  intro s rest
  refine ⟨fun cells hm => ⟨s.reg.writeAll cells, by simp [step, nextMove, hm], fun b hb => Memory.read_writeAll_other hb, ?_⟩,
    fun hm => by simp [step, nextMove, hm]⟩
  rintro before a v after rfl hlast
  have hafter : ∀ c ∈ after, c.1.toNat ≠ a.toNat := fun c hc h => hlast c hc (BitVec.eq_of_toNat_eq h)
  rw [Memory.writeAll_append, Memory.writeAll, Memory.read_writeAll_other hafter, Memory.read_write_same]

/-- Settles O32: the waiting command hands on the transport's refusal, and refuses bytes of another number than it asked for. -/
theorem mistakesInTheScriptAreRefused : Obligations.MistakesInTheScriptAreRefused := by
  intro i s q hs hi hq
  obtain ⟨k, hk, hshape, -⟩ := exec_waits hs hi
  refine ⟨fun ht => ?_, fun data script ht hlen => ?_⟩
  · rw [hk s rfl, await_refused (transportTurn_scripted_nil hq ht)]
  · rw [hk s rfl, await_ok (transportTurn_scripted hq ht), hshape data _ hlen]

end Sys2Proof.Machine
end

section
/-!
SUPPORT. The opcode table byte by byte, the row of each command and the command of each accepted word (R68, R69), and the illegal words
of each format (R62, R70).
-/

namespace Sys2Proof

/-! ## The table, field by field (R61, R68) -/

theorem word_eq_iff {w v : CommandWord} : w = v ↔ opField w = opField v ∧ aField w = aField v ∧ bField w = bField v := by
  refine ⟨by rintro rfl; simp, fun ⟨hop, ha, hb⟩ => ?_⟩
  rw [← packWord_fields w, hop, ha, hb, packWord_fields]

/-- A row accepts a word when it accepts each of the word's fields. -/
theorem OpcodeRow.accepts_iff {r : OpcodeRow} {w : CommandWord} :
    r.accepts w = true ↔
      opField w &&& opField r.mask = opField r.pattern ∧ aField w &&& aField r.mask = aField r.pattern ∧
        bField w &&& bField r.mask = bField r.pattern := by
  simp only [OpcodeRow.accepts, beq_iff_eq, word_eq_iff, opField, aField, bField, BitVec.extractLsb'_and]

theorem byte_and_ones (x : Byte) : x &&& 0xFF#8 = x := BitVec.and_allOnes

/-- The seven high bits of a byte are zero for `0` and `1` alone: the must-be-zero bits of format A (R62). -/
theorem byte_and_high_eq_zero {x : Byte} : x &&& 0xFE#8 = 0#8 ↔ x = 0#8 ∨ x = 1#8 := by revert x; decide

/-- The opcode of an accepted word is the row's own. -/
theorem OpcodeRow.opField_of_accepts {r : OpcodeRow} {w : CommandWord} (hr : r ∈ opcodeTable) (h : r.accepts w = true) :
    opField w = opField r.pattern := by
  have hmask : ∀ r ∈ opcodeTable, opField r.mask = 0xFF#8 := by decide
  obtain ⟨hop, -, -⟩ := OpcodeRow.accepts_iff.mp h
  rwa [hmask r hr, byte_and_ones] at hop

/-- The bits of a command's word that its format fixes: the opcode, and the must-be-zero bits (R62, R68). -/
def Instr.mask : Instr → CommandWord
  | .new _ => packWord 0xFF 0xFF 0xFE
  | .drop => packWord 0xFF 0xFF 0xFF
  | .writeRegister _ _ => packWord 0xFF 0 0
  | .readRegister _ => packWord 0xFF 0 0xFF
  | .readRegisterAsU16 _ _ => packWord 0xFF 0 0
  | .setAccelLowNoiseMode => packWord 0xFF 0xFF 0xFF
  | .readAccelX => packWord 0xFF 0xFF 0xFF
  | .readAccelY => packWord 0xFF 0xFF 0xFF
  | .readAccelZ => packWord 0xFF 0xFF 0xFF

/-- The table's row of a command (R68). -/
def Instr.row (i : Instr) : OpcodeRow := ⟨i.mnemonic, packWord i.opcode 0 0, i.mask⟩

theorem Instr.row_mem (i : Instr) : i.row ∈ opcodeTable := by
  cases i <;> (simp only [row, mask, mnemonic, opcode]; decide)

/-- The row of a command accepts the command's word. -/
theorem Instr.row_accepts_encode (i : Instr) : i.row.accepts (encode i) = true := by
  rw [OpcodeRow.accepts_iff]
  cases i with
  | new ad => cases ad <;> simp [row, mask, encode, opcode, AddrSelect.bit]
  | writeRegister reg value => simp [row, mask, encode, opcode]
  | readRegister reg => simp [row, mask, encode, opcode]
  | readRegisterAsU16 upper lower => simp [row, mask, encode, opcode]
  | drop => simp [row, mask, encode, opcode]
  | setAccelLowNoiseMode => simp [row, mask, encode, opcode]
  | readAccelX => simp [row, mask, encode, opcode]
  | readAccelY => simp [row, mask, encode, opcode]
  | readAccelZ => simp [row, mask, encode, opcode]

/-- A word that some row accepts decodes to a command. -/
theorem decodes_of_accepts {w : CommandWord} {r : OpcodeRow} (hr : r ∈ opcodeTable) (h : r.accepts w = true) :
    ∃ i, decode w = .ok i := by
  suffices ∃ i : Instr, i.fieldsAre (opField w) (aField w) (bField w) from
    this.imp fun _ => decodeFields_of_fieldsAre
  obtain ⟨-, ha, hb⟩ := OpcodeRow.accepts_iff.mp h
  have hop := OpcodeRow.opField_of_accepts hr h
  have fixed {x y : Byte} (hx : x &&& 0xFF#8 = y) : x = y := (byte_and_ones x).symm.trans hx
  clear h
  generalize opField w = op, aField w = a, bField w = b at hop ha hb ⊢
  simp only [opcodeTable, List.mem_cons, List.not_mem_nil, or_false] at hr
  rcases hr with rfl | rfl | rfl | rfl | rfl | rfl | rfl | rfl | rfl
  · rcases byte_and_high_eq_zero.mp hb with rfl | rfl
    · exact ⟨.new .ad0, hop, fixed ha, rfl⟩
    · exact ⟨.new .ad1, hop, fixed ha, rfl⟩
  · exact ⟨.drop, hop, fixed ha, fixed hb⟩
  · exact ⟨.writeRegister a b, hop, rfl, rfl⟩
  · exact ⟨.readRegister a, hop, rfl, fixed hb⟩
  · exact ⟨.readRegisterAsU16 a b, hop, rfl, rfl⟩
  · exact ⟨.setAccelLowNoiseMode, hop, fixed ha, fixed hb⟩
  · exact ⟨.readAccelX, hop, fixed ha, fixed hb⟩
  · exact ⟨.readAccelY, hop, fixed ha, fixed hb⟩
  · exact ⟨.readAccelZ, hop, fixed ha, fixed hb⟩

/-! ## The illegal words of each format (R62, R70) -/

theorem decodeFormatN_error_iff {i : Instr} {op a b : Byte} :
    (∃ e, decodeFormatN i op a b = .error e) ↔ a ≠ 0 ∨ b ≠ 0 := by
  unfold decodeFormatN
  split
  · simp [*]
  · rename_i h; simpa [imp_iff_not_or] using h

theorem decodeFormatR_error_iff {mk : RegAddr → Instr} {op a b : Byte} :
    (∃ e, decodeFormatR mk op a b = .error e) ↔ b ≠ 0 := by
  unfold decodeFormatR
  split <;> simp [*]

/-- `b[7:1]` is zero for the two values of `b` that format A has. -/
theorem highBits_eq_zero_iff {w : CommandWord} : w.extractLsb' 1 7 = 0#7 ↔ bField w = 0#8 ∨ bField w = 1#8 := by
  simp only [bField, ← BitVec.toNat_inj, BitVec.extractLsb'_toNat]
  simp
  omega

theorem decodeFormatA_error_iff {mk : AddrSelect → Instr} {op : Byte} {a b : Byte} :
    (∃ e, decodeFormatA mk op a b = .error e) ↔ a ≠ 0 ∨ ¬(b = 0#8 ∨ b = 1#8) := by
  unfold decodeFormatA
  split
  · simp [*]
  · split
    · simp [*]
    · simp only [Except.error.injEq, exists_eq', true_iff]
      grind

end Sys2Proof
end

section
/-!
The statements about the decoder, the encoder and the opcode table (R62, R68 to R70).
-/

namespace Sys2Proof

/-- Settles O1: `decode_encode`; every command is well-formed. -/
theorem decodeOfEncodeIsTheCommand : Obligations.DecodeOfEncodeIsTheCommand := fun i _ => decode_encode i

/-- Settles O2: a decoded word has its command's fields, and a word is its fields (`encode_of_decode`). -/
theorem encodeOfDecodeIsTheWord : Obligations.EncodeOfDecodeIsTheWord := fun _ _ => encode_of_decode

/-- Settles O3: each word is computed to be the word of its command. -/
theorem wordsWrittenOutDecode : Obligations.WordsWrittenOutDecode :=
  ⟨decode_encode (.new .ad0), decode_encode (.new .ad1), decode_encode .drop, decode_encode (.writeRegister 0x1F 0x03),
    decode_encode (.readRegister 0x0B), decode_encode (.readRegisterAsU16 0x0B 0x0C), decode_encode .setAccelLowNoiseMode,
    decode_encode .readAccelX, decode_encode .readAccelY, decode_encode .readAccelZ⟩

/-- Settles O5: rows that accept one word have its opcode, and the table's opcodes differ (R69). -/
theorem noTwoRowsAcceptOneWord : Obligations.NoTwoRowsAcceptOneWord := by
  intro w r₁ r₂ h₁ h₂ ha₁ ha₂
  have hop : opField r₁.pattern = opField r₂.pattern :=
    (OpcodeRow.opField_of_accepts h₁ ha₁).symm.trans (OpcodeRow.opField_of_accepts h₂ ha₂)
  have hdistinct : ∀ r ∈ opcodeTable, ∀ r' ∈ opcodeTable, opField r.pattern = opField r'.pattern → r = r' := by decide
  exact hdistinct r₁ h₁ r₂ h₂ hop

/-- The row found for a word is the one that accepts it, wherever it stands in the table (R69). -/
theorem find_row_of_accepts {w : CommandWord} {r : OpcodeRow} (hr : r ∈ opcodeTable) (h : r.accepts w = true) :
    (opcodeTable.find? fun r => r.accepts w) = some r := by
  obtain ⟨r', hfind⟩ : ∃ r', (opcodeTable.find? fun r => r.accepts w) = some r' := by
    rw [← Option.isSome_iff_exists, List.find?_isSome]
    exact ⟨r, hr, h⟩
  have hacc : r'.accepts w = true := by simpa using List.find?_some hfind
  rw [hfind, noTwoRowsAcceptOneWord w r' r (List.mem_of_find?_eq_some hfind) hr hacc h]

/-- Settles O4: the row of a decoded command accepts the word and so is the one found; a word that does not decode has no row. -/
theorem decodeFollowsTheOpcodeTable : Obligations.DecodeFollowsTheOpcodeTable := by
  intro w
  cases hw : decode w with
  | ok i =>
    have hacc : i.row.accepts w = true := encode_of_decode hw ▸ i.row_accepts_encode
    rw [find_row_of_accepts i.row_mem hacc]
    rfl
  | error e =>
    have hnone : (opcodeTable.find? fun r => r.accepts w) = none := by
      refine List.find?_eq_none.mpr fun r hr h => ?_
      obtain ⟨i, hi⟩ := decodes_of_accepts hr h
      simp [hw] at hi
    rw [hnone]
    rfl

/-- Settles O6: each opcode's branch of the decoder refuses the words its format does (`decodeFormatA_error_iff` and the like). -/
theorem illegalWordsAreReservedOrNotZero : Obligations.IllegalWordsAreReservedOrNotZero := by
  intro w
  have hbits : w.extractLsb' 1 7 ≠ 0 ↔ ¬(bField w = 0#8 ∨ bField w = 1#8) := highBits_eq_zero_iff.not
  rw [hbits]
  unfold decode decodeFields
  split
  · simp [*, decodeFormatA_error_iff]
  split
  · simp [*, decodeFormatN_error_iff]
  split
  · simp [*]
  split
  · simp [*, decodeFormatR_error_iff]
  split
  · simp [*]
  split
  · simp [*, decodeFormatN_error_iff]
  split
  · simp [*, decodeFormatN_error_iff]
  split
  · simp [*, decodeFormatN_error_iff]
  split
  · simp [*, decodeFormatN_error_iff]
  · simp [*]

end Sys2Proof
end

section
/-!
SUPPORT. The printed text of a command and its reading back (R75; assumption 19): digits and bytes, words without blanks, commas and
semicolons, and a line as its mnemonic with its operand fields.
-/

namespace Sys2Proof.Machine

/-! ## Bytes -/

theorem digitValue_hexDigit {n : Nat} (h : n < 16) : digitValue (hexDigit n) = some n := by
  revert n; decide

/-- A printed digit is no underscore. -/
theorem hexDigit_ne_underscore {n : Nat} (h : n < 16) : hexDigit n ≠ '_' := by
  revert n; decide

theorem readDigits_hexDigit {acc n : Nat} {cs : List Char} (h : n < 16) :
    readDigits 16 false acc (hexDigit n :: cs) = readDigits 16 false (acc * 16 + n) cs := by
  simp [readDigits, digitValue_hexDigit h, h]

theorem readLiteral_printByte (b : Byte) : readLiteral (printByte b) = some b.toNat := by
  have hhi : b.toNat / 16 < 16 := by omega
  have hlo : b.toNat % 16 < 16 := by omega
  calc readLiteral (printByte b)
      = readDigits 16 false 0 [hexDigit (b.toNat / 16), hexDigit (b.toNat % 16)] := by
        simp only [printByte, readLiteral, hexDigit_ne_underscore hhi, if_false]
    _ = some ((0 * 16 + b.toNat / 16) * 16 + b.toNat % 16) := by
        rw [readDigits_hexDigit hhi, readDigits_hexDigit hlo, readDigits]
    _ = some b.toNat := congrArg some (by omega)

/-- No Register Map name begins with a digit. -/
theorem namedByte_printByte (b : Byte) : namedByte (printByte b) = none := by
  simp [namedByte, printByte]

theorem readOperand_printByte (b : Byte) : readOperand (printByte b) = some b := by
  simp [readOperand, namedByte_printByte, readLiteral_printByte, b.isLt]

/-! ## Words -/

/-- A text that no blank, comma or comment divides. -/
def IsWord (cs : List Char) : Prop := cs ≠ [] ∧ ∀ c ∈ cs, isBlank c = false ∧ c ≠ ',' ∧ c ≠ ';'

theorem IsWord.no_blank {f : List Char} (hf : IsWord f) : ∀ c ∈ f, isBlank c = false := fun c hc =>
  have ⟨hblank, _, _⟩ := hf.2 c hc
  hblank

theorem IsWord.no_comma {f : List Char} (hf : IsWord f) : ∀ c ∈ f, c ≠ ',' := fun c hc =>
  have ⟨_, hcomma, _⟩ := hf.2 c hc
  hcomma

theorem IsWord.no_semicolon {f : List Char} (hf : IsWord f) : ∀ c ∈ f, c ≠ ';' := fun c hc =>
  have ⟨_, _, hsemicolon⟩ := hf.2 c hc
  hsemicolon

theorem isWord_printByte (b : Byte) : IsWord (printByte b) := by
  have digit {n : Nat} (h : n < 16) : isBlank (hexDigit n) = false ∧ hexDigit n ≠ ',' ∧ hexDigit n ≠ ';' := by
    revert n; decide
  refine ⟨List.cons_ne_nil _ _, ?_⟩
  simp only [printByte, List.forall_mem_cons]
  exact ⟨by decide, by decide, digit (by omega), digit (by omega), by simp⟩

theorem isWord_mnemonic (i : Instr) : IsWord i.mnemonic.toList := by
  cases i <;> simp [IsWord, Instr.mnemonic, isBlank]

/-- A text that begins with a word has no blank at its beginning. -/
theorem IsWord.dropWhile_append {f : List Char} (hf : IsWord f) (t : List Char) : (f ++ t).dropWhile isBlank = f ++ t := by
  cases f with
  | nil => exact absurd rfl hf.1
  | cons c f =>
    simp [hf.no_blank c (.head _)]

theorem IsWord.reverse {f : List Char} (hf : IsWord f) : IsWord f.reverse := by
  simpa [IsWord] using hf

/-- A text that begins and ends with a word has no blanks to trim. -/
theorem trimBlanks_eq_self {cs f g t t' : List Char} (hf : IsWord f) (hg : IsWord g) (h : cs = f ++ t) (h' : cs = t' ++ g) :
    trimBlanks cs = cs := by
  rw [trimBlanks, h, hf.dropWhile_append, ← h, h', List.reverse_append, hg.reverse.dropWhile_append, ← List.reverse_append,
    List.reverse_reverse]

theorem trimBlanks_space (cs : List Char) : trimBlanks (' ' :: cs) = trimBlanks cs := rfl

theorem IsWord.trimBlanks {f : List Char} (hf : IsWord f) : trimBlanks f = f :=
  trimBlanks_eq_self hf hf (List.append_nil f).symm (List.nil_append f).symm

/-! ## Operand fields -/

/-- Operand fields as they are printed: each after a blank, commas between them. -/
def operandText : List (List Char) → List Char
  | [] => []
  | [f] => ' ' :: f
  | f :: g :: fs => ' ' :: f ++ ',' :: operandText (g :: fs)

theorem splitCommas_of_no_comma {cs : List Char} (h : ∀ c ∈ cs, c ≠ ',') : splitCommas cs = [cs] := by
  induction cs with
  | nil => rfl
  | cons c cs ih =>
    obtain ⟨hc, hcs⟩ := List.forall_mem_cons.mp h
    simp [splitCommas, hc, ih hcs]

theorem splitCommas_append_comma {cs t : List Char} (h : ∀ c ∈ cs, c ≠ ',') :
    splitCommas (cs ++ ',' :: t) = cs :: splitCommas t := by
  induction cs with
  | nil => simp [splitCommas]
  | cons c cs ih =>
    obtain ⟨hc, hcs⟩ := List.forall_mem_cons.mp h
    simp [splitCommas, hc, ih hcs]

/-- The text of operand fields splits into them, each with its blank. -/
theorem splitCommas_operandText {f : List Char} {fs : List (List Char)} (h : ∀ g ∈ f :: fs, IsWord g) :
    splitCommas (operandText (f :: fs)) = (f :: fs).map (' ' :: ·) := by
  induction fs generalizing f with
  | nil => exact splitCommas_of_no_comma (List.forall_mem_cons.mpr ⟨by decide, (h f (.head _)).no_comma⟩)
  | cons g fs ih =>
    obtain ⟨hf, hfs⟩ := List.forall_mem_cons.mp h
    have hfield : ∀ c ∈ ' ' :: f, c ≠ ',' := List.forall_mem_cons.mpr ⟨by decide, hf.no_comma⟩
    rw [operandText, splitCommas_append_comma hfield, ih hfs]
    rfl

/-- The text of operand fields holds no comment. -/
theorem operandText_no_semicolon {fs : List (List Char)} (h : ∀ g ∈ fs, IsWord g) : ∀ c ∈ operandText fs, c ≠ ';' := by
  induction fs using operandText.induct with
  | case1 => simp [operandText]
  | case2 f =>
    exact List.forall_mem_cons.mpr ⟨by decide, (h f (.head _)).no_semicolon⟩
  | case3 f g fs ih =>
    obtain ⟨hf, hfs⟩ := List.forall_mem_cons.mp h
    rw [operandText, List.forall_mem_append]
    exact ⟨List.forall_mem_cons.mpr ⟨by decide, hf.no_semicolon⟩, List.forall_mem_cons.mpr ⟨by decide, ih hfs⟩⟩

/-- The text of operand fields is a blank, then text that begins with the first field. -/
theorem operandText_cons (f : List Char) (fs : List (List Char)) : ∃ t, operandText (f :: fs) = ' ' :: (f ++ t) := by
  cases fs with
  | nil => exact ⟨[], by simp [operandText]⟩
  | cons g fs => exact ⟨_, rfl⟩

/-- The text of operand fields ends with a word. -/
theorem operandText_ends {f : List Char} {fs : List (List Char)} (h : ∀ g ∈ f :: fs, IsWord g) :
    ∃ t g, IsWord g ∧ operandText (f :: fs) = ' ' :: (t ++ g) := by
  induction fs generalizing f with
  | nil => exact ⟨[], f, h f (.head _), rfl⟩
  | cons g fs ih =>
    obtain ⟨t, w, hw, ht⟩ := ih (List.forall_mem_cons.mp h).2
    exact ⟨f ++ ',' :: ' ' :: t, w, hw, by simp [operandText, ht]⟩

/-- Printed operand fields read back. -/
theorem operandFields_operandText {fs : List (List Char)} (h : ∀ g ∈ fs, IsWord g) : operandFields (operandText fs) = fs := by
  cases fs with
  | nil => rfl
  | cons f fs =>
    have hf := h f (.head _)
    obtain ⟨t, ht⟩ := operandText_cons f fs
    obtain ⟨t', g, hg, hg'⟩ := operandText_ends h
    have hx : f ++ t = t' ++ g := List.cons_inj_right _ |>.mp (ht.symm.trans hg')
    have hne : trimBlanks (operandText (f :: fs)) ≠ [] := by
      rw [ht, trimBlanks_space, trimBlanks_eq_self hf hg rfl hx]
      simp [hf.1]
    rw [operandFields, if_neg hne, splitCommas_operandText h, List.map_map]
    exact (List.map_congr_left fun g hg => (trimBlanks_space g).trans (h g hg).trimBlanks).trans (List.map_id _)

/-! ## Lines -/

/-- A line of a mnemonic and operand fields, as printed, is read as that mnemonic with those fields. -/
theorem readLine_of_readCommand {m : List Char} {fs : List (List Char)} {i : Instr} (hm : IsWord m) (hfs : ∀ g ∈ fs, IsWord g)
    (hi : readCommand m fs = some i) : readLine (m ++ operandText fs) = .command i := by
  have hcomment : (m ++ operandText fs).takeWhile (· != ';') = m ++ operandText fs := by
    refine List.takeWhile_eq_self_iff.mpr fun c hc => ?_
    obtain hc | hc := List.mem_append.mp hc
    · simpa using hm.no_semicolon c hc
    · simpa using operandText_no_semicolon hfs c hc
  have htrim : trimBlanks (m ++ operandText fs) = m ++ operandText fs := by
    cases fs with
    | nil => exact trimBlanks_eq_self hm hm rfl (t' := []) (List.append_nil m)
    | cons f fs =>
      obtain ⟨t, g, hg, ht⟩ := operandText_ends hfs
      exact trimBlanks_eq_self hm hg rfl (t' := m ++ ' ' :: t) (by simp [ht])
  have hword : ∀ c ∈ m, (!isBlank c) = true := fun c hc => by simp [hm.no_blank c hc]
  obtain ⟨hmnemonic, hoperands⟩ : (m ++ operandText fs).takeWhile (fun c => !isBlank c) = m ∧
      (m ++ operandText fs).dropWhile (fun c => !isBlank c) = operandText fs := by
    rw [List.takeWhile_append_of_pos hword, List.dropWhile_append_of_pos hword]
    cases fs with
    | nil => simp [operandText]
    | cons f fs =>
      obtain ⟨t, ht⟩ := operandText_cons f fs
      simp [ht, isBlank]
  simp only [readLine, hcomment, htrim, hmnemonic, hoperands, operandFields_operandText hfs, hi]
  simp [hm.1]

/-- The operand fields of a command as they are printed (R75). -/
def printedOperands : Instr → List (List Char)
  | .new .ad0 => ["AD0".toList]
  | .new .ad1 => ["AD1".toList]
  | .drop => []
  | .writeRegister reg value => [printByte reg, printByte value]
  | .readRegister reg => [printByte reg]
  | .readRegisterAsU16 upper lower => [printByte upper, printByte lower]
  | .setAccelLowNoiseMode => []
  | .readAccelX => []
  | .readAccelY => []
  | .readAccelZ => []

theorem isWord_of_mem_printedOperands {i : Instr} : ∀ f ∈ printedOperands i, IsWord f := by
  have hAD0 : IsWord "AD0".toList := by simp [IsWord, isBlank]
  have hAD1 : IsWord "AD1".toList := by simp [IsWord, isBlank]
  cases i with
  | new ad => cases ad <;> simpa [printedOperands]
  | writeRegister reg value => simp [printedOperands, isWord_printByte]
  | readRegister reg => simp [printedOperands, isWord_printByte]
  | readRegisterAsU16 upper lower => simp [printedOperands, isWord_printByte]
  | drop => exact List.forall_mem_nil _
  | setAccelLowNoiseMode => exact List.forall_mem_nil _
  | readAccelX => exact List.forall_mem_nil _
  | readAccelY => exact List.forall_mem_nil _
  | readAccelZ => exact List.forall_mem_nil _

theorem printCommand_eq (i : Instr) : printCommand i = i.mnemonic.toList ++ operandText (printedOperands i) := by
  cases i with
  | new ad => cases ad <;> rfl
  | drop => rfl
  | writeRegister reg value => rfl
  | readRegister reg => rfl
  | readRegisterAsU16 upper lower => rfl
  | setAccelLowNoiseMode => rfl
  | readAccelX => rfl
  | readAccelY => rfl
  | readAccelZ => rfl

/-- A command's mnemonic and printed operands are read as the command. -/
theorem readCommand_printedOperands (i : Instr) : readCommand i.mnemonic.toList (printedOperands i) = some i := by
  cases i with
  | new ad => cases ad <;> rfl
  | drop => rfl
  | writeRegister reg value =>
    simp [readCommand, Instr.mnemonic, printedOperands, readOperand_printByte]
  | readRegister reg =>
    simp [readCommand, Instr.mnemonic, printedOperands, readOperand_printByte]
  | readRegisterAsU16 upper lower =>
    simp [readCommand, Instr.mnemonic, printedOperands, readOperand_printByte]
  | setAccelLowNoiseMode => rfl
  | readAccelX => rfl
  | readAccelY => rfl
  | readAccelZ => rfl

end Sys2Proof.Machine
end

section
/-!
SUPPORT. The error codes read back (R66), the three kinds of response (R64, R65), and the shape and the address of a transaction
(R36, R73).
-/

namespace Sys2Proof

/-- The payload with a code; `0x00` is the code of none (R66). -/
def BusErr.ofCode (c : Byte) : Option BusErr :=
  match c.toNat with
  | 0 => none
  | 1 => some .noAcknowledge
  | 2 => some .arbitrationLoss
  | 3 => some .timeout
  | 4 => some .busBusy
  | 5 => some .malformedTransaction
  | k + 6 => if h : k < 250 then some (.transportDefined ⟨k, h⟩) else none

theorem BusErr.code_toNat_transportDefined (k : Fin 250) : (BusErr.transportDefined k).code.toNat = k.val + 6 := by
  simp only [code, BitVec.toNat_ofNat]
  omega

/-- The code of a payload reads back as the payload. -/
theorem BusErr.ofCode_code (e : BusErr) : ofCode e.code = some e := by
  cases e with
  | transportDefined k => simp [ofCode, code_toNat_transportDefined]
  | noAcknowledge => rfl
  | arbitrationLoss => rfl
  | timeout => rfl
  | busBusy => rfl
  | malformedTransaction => rfl

/-- Every byte but zero is a payload's code. -/
theorem BusErr.exists_code_eq {c : Byte} (hc : c ≠ 0#8) : ∃ e : BusErr, e.code = c := by
  have h255 : ∀ c : Byte, c ≠ 0#8 → ((ofCode c).map code) = some c := by decide
  obtain ⟨e, -, he⟩ := Option.map_eq_some_iff.mp (h255 c hc)
  exact ⟨e, he⟩

/-- A transaction of one of the two formats, spelled out (R73). -/
theorem BusRequest.wellFormed_iff {q : BusRequest} :
    q.wellFormed = true ↔
      (∃ dev a v, q = .busWrite dev [a, v] ∧ (dev = 0x68#7 ∨ dev = 0x69#7)) ∨
      (∃ dev a, q = .busWriteRead dev [a] 1 ∧ (dev = 0x68#7 ∨ dev = 0x69#7)) := by
  cases q with
  | busWrite dev bytes => simp [wellFormed, DevAddr.legal, List.length_eq_two]; tauto
  | busWriteRead dev wbytes n => simp [wellFormed, DevAddr.legal, List.length_eq_one_iff]; tauto

/-- A command addresses every one of its transactions to the device it is given (R36). -/
theorem transactions_dev {i : Instr} {dev : DevAddr} {q : BusRequest} (hq : q ∈ i.transactions dev) : q.dev = dev := by
  cases i <;> simp [Instr.transactions] at hq <;> rcases hq with rfl | rfl <;> rfl

namespace Machine

theorem responseLegal_iff {r : ResponseWord} :
    responseLegal r = true ↔
      (statusField r = 0x00#8 ∧ ecodeField r = 0x00#8) ∨
      (statusField r = 0x01#8 ∧ ecodeField r ≠ 0x00#8 ∧ valueField r = 0x0000#16) ∨
      (statusField r = 0x02#8 ∧ ecodeField r = 0x00#8 ∧ valueField r = 0x0000#16) := by
  simp [responseLegal, and_assoc, or_assoc]

/-- What the host reads in a state of the invariant is a legal response (R21, R64). -/
theorem State.Inv.responseLegal {s : State} {r : ResponseWord} (h : s.Inv) (hr : s.readResponse = some r) :
    responseLegal r = true := by
  obtain ⟨hv, rfl⟩ : s.rspValid = true ∧ s.rsp = r := by simpa [readResponse] using hr
  simpa [responseOk, hv] using h.response

/-- The outstanding transaction of a state of the invariant is one of the latched command's (R34). -/
theorem State.Inv.outstanding {s : State} {q : BusRequest} (h : s.Inv) (hq : s.req = some q) :
    s.owned = true ∧ ∃ i : Instr, q ∈ i.transactions s.devaddr := by
  have hs : s.seq ≠ .idle := fun hs => by simp [h.idle_req hs] at hq
  obtain ⟨ho, -, i, q', -, hq', hi⟩ := h.busy hs
  obtain rfl : q = q' := Option.some.inj (hq.symm.trans hq')
  exact ⟨ho, i, List.mem_of_getElem? hi⟩

/-- Every transaction of the trace has one of the two formats in a state of the invariant (R73). -/
theorem State.Inv.trace_wellFormed {s : State} {e : BusRequest × Option BusAnswer} (h : s.Inv) (he : e ∈ s.trace) :
    e.1.wellFormed = true := by
  rw [trace, List.mem_append] at he
  obtain he | he := he
  · obtain ⟨t, ht, rfl⟩ := List.mem_map.mp he
    have hlog := List.all_eq_true.mp h.log t ht
    simp only [Bool.and_eq_true] at hlog
    exact hlog.1
  · obtain ⟨q, hq, rfl⟩ := List.mem_map.mp he
    obtain ⟨ho, i, hi⟩ := h.outstanding (Option.mem_toList.mp hq)
    exact transactions_wellFormed (h.devaddr_legal ho) hi

end Machine

end Sys2Proof
end

section
/-!
SUPPORT. A command's word is not read while it runs (R77), and which word or latch a step runs (R18, R59, R60).
-/

namespace Sys2Proof.Machine

/-- The state with `CMD` masked. -/
def State.withoutCmd (s : State) : State := { s with cmd := 0 }

/-- Acceptance under either word leaves the same state, `CMD` aside. -/
theorem acceptTransfer_withoutCmd (w w' : CommandWord) (q : BusRequest) (s : State) :
    mapNext State.withoutCmd (acceptTransfer w q s) = mapNext State.withoutCmd (acceptTransfer w' q s) := by
  unfold acceptTransfer
  split
  · rfl
  · rfl

/-- A register write is the same under either word, `CMD` aside (R77). -/
theorem runWrite_withoutCmd (w w' : CommandWord) (reg : RegAddr) (value : Byte) (s : State) :
    mapNext State.withoutCmd (runWrite w reg value s) = mapNext State.withoutCmd (runWrite w' reg value s) := by
  unfold runWrite
  split
  · exact acceptTransfer_withoutCmd w w' _ s
  · rfl
  · rfl

/-- A composed read is the same under either word, `CMD` aside (R77). -/
theorem runComposedRead_withoutCmd (w w' : CommandWord) (upper lower : RegAddr) (s : State) :
    mapNext State.withoutCmd (runComposedRead w upper lower s) = mapNext State.withoutCmd (runComposedRead w' upper lower s) := by
  unfold runComposedRead
  split
  · exact acceptTransfer_withoutCmd w w' _ s
  · rfl
  · rfl

/-- The word at the ready port is the one the step runs (R59). -/
theorem step_present_ready {s : State} {w : CommandWord} {i : Instr} {rest : List Move} (hs : s.seq = .idle) (hd : decode w = .ok i)
    (hm : s.moves = .present w :: rest) : step s = exec i { s with moves := rest } := by
  simp [step, nextMove, hm, State.ready, hs, acceptWord, hd]

/-- A word at the port of a busy block is not taken: the step is the sequencer's turn (R60). -/
theorem step_present_busy {s : State} {w : CommandWord} {rest : List Move} (hs : s.seq ≠ .idle)
    (hm : s.moves = .present w :: rest) : step s = sequencerTurn s := by
  simp [step, nextMove, hm, State.ready, hs]

/-- With no move listed the step is the sequencer's turn. -/
theorem step_no_moves {s : State} (hm : s.moves = []) : step s = sequencerTurn s := by
  simp [step, nextMove, hm]

/-- The sequencer's turn while busy is the latched command's (R18). -/
theorem sequencerTurn_busy {s : State} {i : Instr} (hs : s.seq ≠ .idle) (hd : decode s.cmd = .ok i) :
    sequencerTurn s = exec i s := by
  unfold sequencerTurn
  split
  · exact absurd ‹_› hs
  · simp only [hd]
  · simp only [hd]

theorem withFetchWord_eq_presentWord (s : State) (w : CommandWord) : s.withFetchWord 24 w.toNat = presentWord w s := by
  have hw : w.toNat % 2 ^ 24 = w.toNat := Nat.mod_eq_of_lt w.isLt
  rw [State.withFetchWord, hw, BitVec.ofNat_toNat, BitVec.setWidth_eq]

end Sys2Proof.Machine
end

section
/-!
The statements about the textual form, the fixed commands, the ports, the responses and the transactions (R59, R60, R63 to R66, R69,
R73, R75, R77).
-/

namespace Sys2Proof.Machine

/-- Settles O7: the printed text is a line of the command's mnemonic and operand fields, and those are read as the command. -/
theorem readingThePrintedTextGivesTheCommand : Obligations.ReadingThePrintedTextGivesTheCommand := by
  intro i
  rw [printCommand_eq]
  exact readLine_of_readCommand (isWord_mnemonic i) isWord_of_mem_printedOperands (readCommand_printedOperands i)

/-- Settles O17: each fixed command is the shared run of its generic one under another word (`runWrite_withoutCmd`,
`runComposedRead_withoutCmd`). -/
theorem fixedCommandsAreInstancesOfGenericOnes : Obligations.FixedCommandsAreInstancesOfGenericOnes := fun s =>
  ⟨runWrite_withoutCmd _ _ pwrMgmt pmLowNoise s, runComposedRead_withoutCmd _ _ accelXHi accelXLo s,
    runComposedRead_withoutCmd _ _ accelYHi accelYLo s, runComposedRead_withoutCmd _ _ accelZHi accelZLo s⟩

/-- Settles O27: a code reads back as its payload, and every byte but zero is a code. -/
theorem errorCodesAreOneToOne : Obligations.ErrorCodesAreOneToOne := by
  refine ⟨busErr_code_ne_zero, fun e e' h => ?_, fun c => BusErr.exists_code_eq, rfl, rfl, rfl, rfl, rfl⟩
  exact Option.some.inj (by rw [← BusErr.ofCode_code, h, BusErr.ofCode_code])

/-- Settles O28: each of the three kinds of a legal response. -/
theorem responsesAreOfThreeKinds : Obligations.ResponsesAreOfThreeKinds := by
  intro s r h hr
  obtain ⟨hst, hec⟩ | ⟨hst, hec, hv⟩ | ⟨hst, hec, hv⟩ := responseLegal_iff.mp (h.responseLegal hr)
  · simp [usableValue, statusOk, valueField, hst, hec]
  · simp [usableValue, statusOk, hst, hec]
    exact hv
  · simp [usableValue, statusOk, hst, hec]
    exact hv

/-- Settles O34: the port, the latch and the placed word each lead the step to the command. -/
theorem stepRunsTheDecodedCommand : Obligations.StepRunsTheDecodedCommand := by
  intro s w i rest hd
  refine ⟨fun hs hm => step_present_ready hs hd hm, fun hs hc hm => step_transport hs (hc ▸ hd) hm, fun hs hc hm => ?_, ?_⟩
  · rw [step_no_moves hm, sequencerTurn_busy hs (hc ▸ hd)]
  · rw [withFetchWord_eq_presentWord]
    exact step_present_ready rfl hd rfl

/-- Settles O35: the step is the waiting command's turn, which leaves the moves to come (`Continued.frame`). -/
theorem busyPortLeavesTheWordWithTheHost : Obligations.BusyPortLeavesTheWordWithTheHost := by
  intro s t w rest hs hm hst
  rw [step_present_busy hs hm] at hst
  obtain ⟨hidle, -⟩ | ⟨-, i, -, hc⟩ := sequencerTurn_next hst
  · exact absurd hidle hs
  · obtain ⟨-, -, -, hmoves⟩ := hc.frame
    rw [hmoves, hm]

/-- Settles O50: the invariant's trace is well-formed, and the outstanding transaction is the latched command's. -/
theorem everyTransactionHasALegalFormat : Obligations.EveryTransactionHasALegalFormat := by
  intro s h
  refine ⟨fun e he => BusRequest.wellFormed_iff.mp (h.trace_wellFormed he), fun q hq => ?_⟩
  obtain ⟨-, i, hi⟩ := h.outstanding hq
  exact transactions_dev hi

end Sys2Proof.Machine
end

section
/-!
SUPPORT. A command with transactions from its refusal or acceptance to its end, each next state written out (R79, R80, R84, R101,
R104, R109).
-/

namespace Sys2Proof.Machine

/-! ## Refusals (R104, R105, R109) -/

/-- A refusal in `IDLE` writes the response and nothing else. -/
theorem raiseIllegal_of_idle {s : State} (hs : s.seq = .idle) (hr : s.req = none) :
    raiseIllegal s = { s with rsp := 0x02000000, rspValid := true } := by
  cases s
  cases hs
  cases hr
  rfl

/-- Without a handle a command with transactions is refused (R81, R105). -/
theorem exec_refuses {i : Instr} {s : State} {q : BusRequest} (hs : s.seq = .idle) (ho : s.owned = false)
    (hq : (i.transactions s.devaddr)[0]? = some q) : exec i s = .next (raiseIllegal s) := by
  have write w reg value : runWrite w reg value s = .next (raiseIllegal s) := by simp [runWrite, hs, acceptTransfer, ho]
  have read w reg : runRead w reg s = .next (raiseIllegal s) := by simp [runRead, hs, acceptTransfer, ho]
  have composed w upper lower : runComposedRead w upper lower s = .next (raiseIllegal s) := by
    simp [runComposedRead, hs, acceptTransfer, ho]
  cases i with
  | new ad => cases hq
  | drop => cases hq
  | writeRegister reg value => exact write _ _ _
  | readRegister reg => exact read _ _
  | readRegisterAsU16 upper lower => exact composed _ _ _
  | setAccelLowNoiseMode => exact write _ _ _
  | readAccelX => exact composed _ _ _
  | readAccelY => exact composed _ _ _
  | readAccelZ => exact composed _ _ _

/-- A word the decoder refuses is answered `ILLEGAL` at the ready port (R70, R104). -/
theorem refusedByEncoding_of_error {w : CommandWord} {e : DecodeError} (h : decode w = .error e) : RefusedByEncoding w := by
  intro s rest hs hr hm
  have hstep : step s = .next (raiseIllegal { s with moves := rest }) := by
    simp only [step, nextMove, hm, State.ready, hs, beq_self_eq_true, if_true, acceptWord, h]
  exact hstep.trans (congrArg _ (raiseIllegal_of_idle (s := { s with moves := rest }) hs hr))

/-! ## The answer (R55, R56, R101) -/

/-- Whoever answers, the answer is recorded and the block's registers are left alone. -/
theorem answerRecorded_of_answered {s t : State} {r : BusAnswer} (h : transportTurn s = .answered r t) : AnswerRecorded s r t := by
  obtain ⟨q, tr, m, k, hq, rfl, -, -⟩ := transportTurn_answered h
  exact ⟨q, hq, rfl⟩

/-- The state a bus error ends in, written out (R101). -/
theorem raiseBusError_state (e : BusErr) (t : State) :
    raiseBusError e t =
      { t with rsp := 0x01#8 ++ e.code ++ 0x0000#16, rspValid := true, req := none, seq := .idle } := by
  rw [← packResponse_error]
  rfl

/-- An error answer is recorded and ends the waiting command (R101). -/
theorem exec_fails {i : Instr} {s t : State} {q : BusRequest} {e : BusErr} (hs : s.seq ≠ .idle)
    (hq : (i.transactions s.devaddr)[s.seq.index]? = some q) (ht : transportTurn s = .answered (.err e) t) :
    AnswerRecorded s (.err e) t ∧
      exec i s = .next { t with rsp := 0x01#8 ++ e.code ++ 0x0000#16, rspValid := true, req := none, seq := .idle } :=
  ⟨answerRecorded_of_answered ht, by rw [exec_error hs hq ht, raiseBusError_state]⟩

/-- The state a success with one byte ends in, written out (R65, R80). -/
theorem respondOk_byteResult_state (d : Byte) (t : State) :
    respondOk (byteResult d) t = { t with rsp := 0x000000#24 ++ d, rspValid := true, req := none, seq := .idle } := by
  rw [← packResponse_byteResult]
  rfl

/-- An `Ok` answer that fits ends a command with one transaction, with the byte read, if any (R79, R80). -/
theorem exec_only {i : Instr} {s t : State} {q : BusRequest} {data : List Byte} (hi : i.transactions s.devaddr = [q])
    (hs : s.seq = .xfer1) (ht : transportTurn s = .answered (.ok data) t) (hf : data.length = q.readCount) :
    exec i s = .next (respondOk (byteResult (data.headD 0)) t) := by
  have write w reg value (hn : data.length = 0) : runWrite w reg value s = .next (respondOk (byteResult (data.headD 0)) t) := by
    obtain rfl := List.length_eq_zero_iff.mp hn
    rw [runWrite, hs]
    exact await_ok ht
  have read w reg (hn : data.length = 1) : runRead w reg s = .next (respondOk (byteResult (data.headD 0)) t) := by
    obtain ⟨d, rfl⟩ := List.length_eq_one_iff.mp hn
    rw [runRead, hs]
    exact await_ok ht
  cases i with
  | writeRegister reg value => cases hi; exact write _ _ _ hf
  | readRegister reg => cases hi; exact read _ _ hf
  | setAccelLowNoiseMode => cases hi; exact write _ _ _ hf
  | new ad => cases hi
  | drop => cases hi
  | readRegisterAsU16 upper lower => cases hi
  | readAccelX => cases hi
  | readAccelY => cases hi
  | readAccelZ => cases hi

/-! ## The two shapes of a command with one transaction (R79, R80) -/

theorem actsAsWrite_of_transactions {i : Instr} {reg : RegAddr} {value : Byte}
    (hi : ∀ dev, i.transactions dev = [.busWrite dev [reg, value]]) : ActsAsWrite i (encode i) reg value := by
  intro s
  have hq : (i.transactions s.devaddr)[0]? = some (.busWrite s.devaddr [reg, value]) := by rw [hi]; rfl
  refine ⟨fun hs hr ho => ?_, fun hs ho => exec_accepts hs ho hq, fun e t hs ht => ?_, fun t hs ht => ?_⟩
  · rw [exec_refuses hs ho hq, raiseIllegal_of_idle hs hr]
  · exact exec_fails (by simp [hs]) (by rw [hs]; exact hq) ht
  · exact ⟨answerRecorded_of_answered ht, exec_only (hi _) hs ht rfl⟩

theorem actsAsRead_of_transactions {i : Instr} {reg : RegAddr} (hi : ∀ dev, i.transactions dev = [.busWriteRead dev [reg] 1]) :
    ActsAsRead i (encode i) reg := by
  intro s
  have hq : (i.transactions s.devaddr)[0]? = some (.busWriteRead s.devaddr [reg] 1) := by rw [hi]; rfl
  refine ⟨fun hs hr ho => ?_, fun hs ho => exec_accepts hs ho hq, fun e t hs ht => ?_, fun d t hs ht => ?_⟩
  · rw [exec_refuses hs ho hq, raiseIllegal_of_idle hs hr]
  · exact exec_fails (by simp [hs]) (by rw [hs]; exact hq) ht
  · refine ⟨answerRecorded_of_answered ht, ?_⟩
    rw [exec_only (hi _) hs ht rfl, respondOk_byteResult_state, List.headD_cons]

/-! ## The step of the answer -/

/-- The response to an answered command with one transaction (R65, R66, R101). -/
def onlyResponse : BusAnswer → ResponseWord
  | .ok data => 0x000000#24 ++ data.headD 0x00#8
  | .err e => 0x01#8 ++ e.code ++ 0x0000#16

/-- The scripted mock bus answers a command with one transaction, which ends in that step (R57, R79, R80). -/
theorem step_scripted_only {i : Instr} {s : State} {q : BusRequest} {r : BusAnswer} {script : List BusAnswer} {rest : List Move}
    (hi : i.transactions s.devaddr = [q]) (hs : s.seq = .xfer1) (hd : decode s.cmd = .ok i) (hq : s.req = some q)
    (htr : s.transport = .scripted (r :: script)) (hf : r.fits q = true) (hm : s.moves = .transport :: rest) :
    step s = .next { s with
      seq := .idle
      req := none
      rsp := onlyResponse r
      rspValid := true
      log := s.log ++ [⟨q, r⟩]
      pmode := sensorMode q r s.pmode
      reg := sensorKnown q r s.reg
      transport := .scripted script
      moves := rest } := by
  have hanswer := transportTurn_scripted (s := { s with moves := rest }) hq htr
  rw [step_transport (by simp [hs]) hd hm]
  cases r with
  | ok data =>
    rw [exec_only (s := { s with moves := rest }) hi hs hanswer (by simpa [BusAnswer.fits] using hf), respondOk_byteResult_state]
    rfl
  | err e =>
    rw [exec_error (s := { s with moves := rest }) (q := q) (by simp [hs]) (by simp [hs, hi, Phase.index]) hanswer, raiseBusError_state]
    rfl

/-! ## Words of a format with a must-be-zero byte (R62, R70) -/

/-- A `READ_REGISTER` word with a low byte that is not zero is illegal. -/
theorem decode_readRegister_error {reg b : Byte} (hb : b ≠ 0x00) :
    decode (0x11#8 ++ reg ++ b : BitVec 24) = .error (.mustBeZero 0x11) := by
  have hfields : decode (packWord 0x11 reg b) = decodeFields 0x11 reg b := by simp [decode]
  refine hfields.trans ?_
  show decodeFormatR .readRegister 0x11 reg b = _
  exact if_neg hb

end Sys2Proof.Machine
end

section
/-!
The statements about the register accesses (R79, R80, R84, R93).
-/

namespace Sys2Proof.Machine

/-- Settles O8: the word is the command's, whose one transaction is the write (`actsAsWrite_of_transactions`). -/
theorem writeRegisterIsOneWrite : Obligations.WriteRegisterIsOneWrite := fun reg value =>
  ⟨decode_encode (.writeRegister reg value), actsAsWrite_of_transactions (i := .writeRegister reg value) fun _ => rfl⟩

/-- Settles O9: the word is the command's, whose one transaction is the read (`actsAsRead_of_transactions`); with another low byte
it does not decode. -/
theorem readRegisterIsOneRead : Obligations.ReadRegisterIsOneRead :=
  ⟨fun reg => ⟨decode_encode (.readRegister reg), actsAsRead_of_transactions (i := .readRegister reg) fun _ => rfl⟩,
    fun _ _ hb => refusedByEncoding_of_error (decode_readRegister_error hb)⟩

/-- Settles O21: the step of acceptance, then the one of the answer (`step_scripted_only`). -/
theorem oneTransactionCommandsRunWhole : Obligations.OneTransactionCommandsRunWhole := by
  intro i s q r script later hi hs ho htr hf hm
  have hq : (i.transactions s.devaddr)[0]? = some q := by rw [hi]; rfl
  calc run 2 s
    _ = run 1 (issue q .xfer1 (latchCommand (encode i) { s with moves := .transport :: later })) :=
      run_next 1 (step_present hs ho hq (decode_encode i) hm)
    _ = run 0 _ := run_next 0 (step_scripted_only hi rfl (decode_encode i) rfl htr hf rfl)
    _ = _ := by cases r <;> rfl

end Sys2Proof.Machine
end

section
/-!
SUPPORT. A composed read from its refusal or acceptance to its end, each next state written out, and its run against the scripted mock
bus (R57, R85, R87, R88).
-/

namespace Sys2Proof.Machine

/-! ## The response (R65, R85) -/

/-- The state a success with a composed value ends in, written out. -/
theorem respondOk_compose_state (u l : Byte) (t : State) :
    respondOk (compose u l) t = { t with rsp := 0x0000#16 ++ u ++ l, rspValid := true, req := none, seq := .idle } := by
  rw [← packResponse_compose]
  rfl

/-- A response `{0, 0, d}` is `OK` with the value `d`, zero-extended. -/
theorem fields_byte_response (d : Byte) :
    statusField (0x000000#24 ++ d : BitVec 32) = 0x00 ∧ valueField (0x000000#24 ++ d : BitVec 32) = byteResult d := by
  rw [← packResponse_byteResult]
  exact ⟨statusField_packResponse .., valueField_packResponse ..⟩

/-- A response `{0, u, l}` is `OK` with the composed value. -/
theorem fields_composed_response (u l : Byte) :
    statusField (0x0000#16 ++ u ++ l : BitVec 32) = 0x00 ∧ valueField (0x0000#16 ++ u ++ l : BitVec 32) = compose u l := by
  rw [← packResponse_compose]
  exact ⟨statusField_packResponse .., valueField_packResponse ..⟩

/-! ## The shape of a command with two transactions (R85) -/

/-- An answer leaves `HI` (R20). -/
theorem AnswerRecorded.hi_eq {s t : State} {r : BusAnswer} (h : AnswerRecorded s r t) : t.hi = s.hi := by
  obtain ⟨q, -, ht⟩ := h
  rw [ht]

theorem actsAsComposedRead_of_transactions {i : Instr} {upper lower : RegAddr}
    (hi : ∀ dev, i.transactions dev = [.busWriteRead dev [upper] 1, .busWriteRead dev [lower] 1]) :
    ActsAsComposedRead i (encode i) upper lower := by
  intro s
  have hq₁ : (i.transactions s.devaddr)[0]? = some (.busWriteRead s.devaddr [upper] 1) := by rw [hi]; rfl
  have hq₂ : (i.transactions s.devaddr)[1]? = some (.busWriteRead s.devaddr [lower] 1) := by rw [hi]; rfl
  refine ⟨fun hs hr ho => ?_, fun hs ho => exec_accepts hs ho hq₁, fun e t hs ht => ?_, fun u t hs ht => ?_, fun e t hs ht => ?_,
    fun l t hs ht => ?_⟩
  · rw [exec_refuses hs ho hq₁, raiseIllegal_of_idle hs hr]
  · exact exec_fails (by simp [hs]) (by rw [hs]; exact hq₁) ht
  · exact ⟨answerRecorded_of_answered ht, exec_first (hi _) hs ht⟩
  · exact exec_fails (by simp [hs]) (by rw [hs]; exact hq₂) ht
  · have hans := answerRecorded_of_answered ht
    exact ⟨hans, by rw [exec_second (hi _) hs ht, respondOk_compose_state, hans.hi_eq]⟩

/-! ## The run against the scripted mock bus (R57) -/

/-- The state with the turn of the transport taken and the script's answer to `q` recorded. -/
def State.scriptAnswered (q : BusRequest) (r : BusAnswer) (script : List BusAnswer) (rest : List Move) (s : State) : State :=
  recordAnswer q r { s with moves := rest, transport := .scripted script, reg := sensorKnown q r s.reg }

/-- The command waits for the answer to its transaction `q`, the script's next entry is `r`, and the transport has its turn. -/
structure ScriptAnswers (i : Instr) (q : BusRequest) (r : BusAnswer) (script : List BusAnswer) (rest : List Move) (s : State) :
    Prop where
  busy : s.seq ≠ .idle
  latched : decode s.cmd = .ok i
  issued : (i.transactions s.devaddr)[s.seq.index]? = some q
  outstanding : s.req = some q
  script : s.transport = .scripted (r :: script)
  turn : s.moves = .transport :: rest

section
variable {i : Instr} {q q₁ q₂ : BusRequest} {r : BusAnswer} {script : List BusAnswer} {rest : List Move} {s : State} {e : BusErr}
  {u l : Byte}

theorem ScriptAnswers.transportTurn (h : ScriptAnswers i q r script rest s) :
    transportTurn { s with moves := rest } = .answered r (s.scriptAnswered q r script rest) :=
  transportTurn_scripted h.outstanding h.script

/-- Acceptance leads to the first transaction's answer (R81). -/
theorem ScriptAnswers.of_accepted (hq : (i.transactions s.devaddr)[0]? = some q) (htr : s.transport = .scripted (r :: script)) :
    ScriptAnswers i q r script rest (issue q .xfer1 (latchCommand (encode i) { s with moves := .transport :: rest })) :=
  ⟨nofun, decode_encode i, hq, rfl, htr, rfl⟩

/-- An error answer ends the command in that step (R101). -/
theorem ScriptAnswers.step_error (h : ScriptAnswers i q (.err e) script rest s) :
    step s = .next (raiseBusError e (s.scriptAnswered q (.err e) script rest)) :=
  (step_transport h.busy h.latched h.turn).trans (exec_error h.busy h.issued h.transportTurn)

/-- The upper byte goes to `HI` and the lower read is issued (R85). -/
theorem ScriptAnswers.step_upper (h : ScriptAnswers i q₁ (.ok [u]) script rest s) (hi : i.transactions s.devaddr = [q₁, q₂])
    (hs : s.seq = .xfer1) : step s = .next (issue q₂ .xfer2 { s.scriptAnswered q₁ (.ok [u]) script rest with hi := u }) :=
  (step_transport h.busy h.latched h.turn).trans (exec_first hi hs h.transportTurn)

/-- The lower byte ends the command with the composed value (R85). -/
theorem ScriptAnswers.step_lower (h : ScriptAnswers i q₂ (.ok [l]) script rest s) (hi : i.transactions s.devaddr = [q₁, q₂])
    (hs : s.seq = .xfer2) : step s = .next (respondOk (compose s.hi l) (s.scriptAnswered q₂ (.ok [l]) script rest)) :=
  (step_transport h.busy h.latched h.turn).trans (exec_second hi hs h.transportTurn)

/-- A composed read accepted with a byte `u` first in the script: after two steps the upper byte stands in `HI` and in the trace, and
the command waits for the answer to the lower read (R87). -/
theorem run_composed_upper (n : Nat) (hi : i.transactions s.devaddr = [q₁, q₂]) (hs : s.seq = .idle) (ho : s.owned = true)
    (htr : s.transport = .scripted (.ok [u] :: r :: script))
    (hm : s.moves = .present (encode i) :: .transport :: .transport :: rest) :
    ∃ t, run (n + 2) s = run n t ∧ ScriptAnswers i q₂ r script rest t ∧ t.seq = .xfer2 ∧ t.hi = u ∧
      t.log = s.log ++ [⟨q₁, .ok [u]⟩] ∧ t.owned = true ∧ t.devaddr = s.devaddr := by
  have hq₁ : (i.transactions s.devaddr)[0]? = some q₁ := by rw [hi]; rfl
  have hq₂ : (i.transactions s.devaddr)[1]? = some q₂ := by rw [hi]; rfl
  have hupper := (ScriptAnswers.of_accepted (rest := .transport :: rest) hq₁ htr).step_upper hi rfl
  exact ⟨_, (run_next (n + 1) (step_present hs ho hq₁ (decode_encode i) hm)).trans (run_next n hupper),
    ⟨nofun, decode_encode i, hq₂, rfl, rfl, rfl⟩, rfl, rfl, rfl, ho, rfl⟩

end

/-! ## The composition as a number (R86) -/

/-- The composition in terms of the values of the two single reads (R85). -/
theorem compose_eq_byteResult (u l : Byte) : compose u l = (byteResult u <<< 8) ||| byteResult l := rfl

theorem toNat_compose (u l : Byte) : (compose u l).toNat = 256 * u.toNat + l.toNat := by
  rw [compose_eq_append, BitVec.toNat_append, ← Nat.shiftLeft_add_eq_or_of_lt l.isLt, Nat.shiftLeft_eq, Nat.mul_comm]

@[simp] theorem high_compose (u l : Byte) : (compose u l).extractLsb' 8 8 = u := by
  rw [compose_eq_append]
  exact BitVec.extractLsb'_append_eq_left

@[simp] theorem low_compose (u l : Byte) : (compose u l).extractLsb' 0 8 = l := by
  rw [compose_eq_append]
  exact BitVec.extractLsb'_append_eq_right

end Sys2Proof.Machine
end

section
/-!
The statements about the value composition (R85, R86, R88).
-/

namespace Sys2Proof.Machine

/-- Settles O10: the word is the command's, whose two transactions are the reads (`actsAsComposedRead_of_transactions`). -/
theorem readRegisterAsU16IsTwoReadsComposed : Obligations.ReadRegisterAsU16IsTwoReadsComposed := fun upper lower =>
  ⟨decode_encode (.readRegisterAsU16 upper lower),
    actsAsComposedRead_of_transactions (i := .readRegisterAsU16 upper lower) fun _ => rfl⟩

/-- Settles O18: the value as a number, and its two bytes, which tell two pairs apart. -/
theorem compositionIsExact : Obligations.CompositionIsExact := by
  intro u l
  refine ⟨toNat_compose u l, high_compose u l, low_compose u l, fun u' l' h => ⟨?_, ?_⟩⟩
  · rw [← high_compose u l, h, high_compose]
  · rw [← low_compose u l, h, low_compose]

/-- Settles O22: an error ends the command where it stands (`ScriptAnswers.step_error`); the last two cases share the upper read
(`run_composed_upper`). -/
theorem composedReadsRunWhole : Obligations.ComposedReadsRunWhole := by
  intro i s q₁ q₂ script later hi hs ho
  refine ⟨fun e htr hm => ?_, fun u e htr hm => ?_, fun u l htr hm => ?_⟩
  · have hq₁ : (i.transactions s.devaddr)[0]? = some q₁ := by rw [hi]; rfl
    have hend := (ScriptAnswers.of_accepted (rest := later) hq₁ htr).step_error
    exact ⟨_, (run_next 1 (step_present hs ho hq₁ (decode_encode i) hm)).trans (run_next 0 hend),
      rfl, rfl, rfl, packResponse_error _, rfl, rfl, ho, rfl, rfl, rfl⟩
  · obtain ⟨t, hrun, hans, -, hhi, hlog, howned, hdev⟩ := run_composed_upper 1 hi hs ho htr hm
    refine ⟨_, hrun.trans (run_next 0 hans.step_error), rfl, rfl, rfl, packResponse_error _, ?_, hhi, howned, hdev, rfl, rfl⟩
    simp [State.scriptAnswered, hlog]
  · obtain ⟨t, hrun, hans, hseq, rfl, hlog, howned, hdev⟩ := run_composed_upper 1 hi hs ho htr hm
    refine ⟨_, hrun.trans (run_next 0 (hans.step_lower (by rw [hdev, hi]) hseq)), rfl, rfl, rfl, packResponse_compose _ _, ?_, rfl,
      howned, hdev, rfl, rfl⟩
    simp [State.scriptAnswered, hlog]

/-- Settles O23: the three runs are known whole (O21, O22), and the composed value combines the two
single ones (`compose_eq_byteResult`). -/
theorem composedReadAgreesWithTwoReads : Obligations.ComposedReadAgreesWithTwoReads := by
  intro s upper lower u l hs ho
  have single (reg : RegAddr) (d : Byte) := oneTransactionCommandsRunWhole (.readRegister reg)
    { s with transport := .scripted [.ok [d]], moves := [.present (encode (.readRegister reg)), .transport] } _ (.ok [d]) [] []
    rfl hs ho rfl rfl rfl
  obtain ⟨-, -, composed⟩ := composedReadsRunWhole (.readRegisterAsU16 upper lower)
    { s with
      transport := .scripted [.ok [u], .ok [l]]
      moves := [.present (encode (.readRegisterAsU16 upper lower)), .transport, .transport] } _ _ [] [] rfl hs ho
  obtain ⟨t, hrun, -, -, -, hrsp, -⟩ := composed u l rfl rfl
  obtain ⟨hst, hv⟩ := fields_composed_response u l
  obtain ⟨hst₁, hv₁⟩ := fields_byte_response u
  obtain ⟨hst₂, hv₂⟩ := fields_byte_response l
  refine ⟨t, _, _, hrun, single upper u, single lower l, hrsp ▸ hst, hst₁, hst₂, ?_⟩
  calc valueField t.rsp
    _ = compose u l := by rw [hrsp, hv]
    _ = (byteResult u <<< 8) ||| byteResult l := compose_eq_byteResult u l
    _ = _ := by rw [← hv₁, ← hv₂]; rfl

end Sys2Proof.Machine
end

section
/-!
SUPPORT. The illegal words of the commands of the Driver Handle, and what `NEW` and `DROP` do in `IDLE` (R70, R91, R92, R105).
-/

namespace Sys2Proof.Machine

/-! ## Illegal words (R62, R70) -/

/-- A word that is no command's is answered `ILLEGAL` (R70). -/
theorem refusedByEncoding_of_encode_ne {w : CommandWord} (h : ∀ i, encode i ≠ w) : RefusedByEncoding w := by
  cases hd : decode w with
  | ok i => exact absurd (encode_of_decode hd) (h i)
  | error e => exact refusedByEncoding_of_error hd

/-- The opcode field of a word written as its opcode and its sixteen other bits. -/
theorem opField_append (op : Byte) (b : BitVec 16) : opField (op ++ b) = op := BitVec.extractLsb'_append_eq_left

/-- The commands of format N: no operand, sixteen must-be-zero bits (R62, R68). -/
def formatN : List Instr := [.drop, .setAccelLowNoiseMode, .readAccelX, .readAccelY, .readAccelZ]

/-- The word of a command of format N has nothing below its opcode. -/
theorem encode_formatN {i : Instr} (hi : i ∈ formatN) : encode i = i.opcode ++ 0#16 := by
  revert i
  decide

/-- A command of format N is the only one with its opcode. -/
theorem eq_of_opcode_formatN {i j : Instr} (hi : i ∈ formatN) (h : j.opcode = i.opcode) : j = i := by
  simp only [formatN, List.mem_cons, List.not_mem_nil, or_false] at hi
  rcases hi with rfl | rfl | rfl | rfl | rfl <;> cases j <;> simp [Instr.opcode] at h ⊢

/-- Every other word with the opcode of a command of format N is illegal. -/
theorem refusedByEncoding_formatN {i : Instr} {b : BitVec 16} (hi : i ∈ formatN) (hb : b ≠ 0) :
    RefusedByEncoding (i.opcode ++ b) := by
  refine refusedByEncoding_of_encode_ne fun j hj => hb ?_
  obtain rfl : j = i := eq_of_opcode_formatN hi (by rw [← opField_encode, hj, opField_append])
  have hlow (c : BitVec 16) : (j.opcode ++ c).extractLsb' 0 16 = c := BitVec.extractLsb'_append_eq_right
  rw [← hlow b, ← hj, encode_formatN hi, hlow]
  rfl

/-- The two words of `NEW`: only the last of the bits below the opcode may be set (R67). -/
theorem encode_new (ad : AddrSelect) : encode (.new ad) = 0x01#8 ++ 0#15 ++ ad.bit := by cases ad <;> decide

/-- A word of `NEW`'s opcode with one of the fifteen must-be-zero bits set is illegal. -/
theorem refusedByEncoding_new {b : BitVec 15} (ad : BitVec 1) (hb : b ≠ 0) : RefusedByEncoding (0x01#8 ++ b ++ ad) := by
  refine refusedByEncoding_of_encode_ne fun j hj => hb ?_
  have hassoc : (0x01#8 ++ b ++ ad : BitVec 24) = 0x01#8 ++ (b ++ ad) := BitVec.append_assoc
  have hop : j.opcode = 0x01 := by rw [← opField_encode, hj, hassoc, opField_append]; rfl
  obtain ⟨ad', rfl⟩ : ∃ ad', j = .new ad' := by
    cases j <;> simp [Instr.opcode] at hop ⊢
  have hmid (c : BitVec 15) (a : BitVec 1) : ((0x01#8 ++ c ++ a).extractLsb' 1 23).extractLsb' 0 15 = c := by
    rw [BitVec.extractLsb'_append_eq_left, BitVec.extractLsb'_append_eq_right]
  rw [← hmid b ad, ← hj, encode_new, hmid]
  rfl

/-! ## The two commands without a transaction (R91, R92) -/

/-- An empty success in `IDLE` writes the response and nothing else. -/
theorem respondOk_zero_of_idle {s : State} (hs : s.seq = .idle) (hr : s.req = none) :
    respondOk 0 s = { s with rsp := 0x00000000, rspValid := true } := by
  cases s
  cases hs
  cases hr
  rfl

theorem exec_new_of_idle (ad : AddrSelect) {s : State} (hs : s.seq = .idle) :
    exec (.new ad) s =
      .next (if s.owned then raiseIllegal s else respondOk 0 { s with owned := true, devaddr := deviceAddress ad }) := by
  simp only [exec, execNew, hs]
  split <;> rfl

theorem exec_drop_of_idle {s : State} (hs : s.seq = .idle) :
    exec .drop s = .next (if s.owned then respondOk 0 { s with owned := false } else raiseIllegal s) := by
  simp only [exec, execDrop, hs]
  split <;> rfl

/-- `NEW` has no phase but `IDLE` (R91). -/
theorem exec_new_of_busy (ad : AddrSelect) {s : State} (hs : s.seq ≠ .idle) : exec (.new ad) s = .fault .noSuchPhase := by
  simp only [exec, execNew]
  split
  · exact absurd ‹_› hs
  · rfl
  · rfl

/-- `DROP` has no phase but `IDLE` (R92). -/
theorem exec_drop_of_busy {s : State} (hs : s.seq ≠ .idle) : exec .drop s = .fault .noSuchPhase := by
  simp only [exec, execDrop]
  split
  · exact absurd ‹_› hs
  · rfl
  · rfl

/-! ## The sensor's mode (R33, R93) -/

theorem pmode_of_answered {s t : State} {q : BusRequest} {r : BusAnswer} (hq : s.req = some q)
    (ht : transportTurn s = .answered r t) : t.pmode = sensorMode q r s.pmode := by
  obtain ⟨q', tr, m, k, hq', rfl, -, -⟩ := transportTurn_answered ht
  obtain rfl : q = q' := Option.some.inj (hq.symm.trans hq')
  rfl

end Sys2Proof.Machine
end

section
/-!
The statements about the commands of the Driver Handle (R91 to R96).
-/

namespace Sys2Proof.Machine

/-- Settles O11: the fifteen bits (`refusedByEncoding_new`), and the meaning in `IDLE` (`exec_new_of_idle`). -/
theorem newConstructsTheHandle : Obligations.NewConstructsTheHandle := by
  refine ⟨decode_encode (.new .ad0), decode_encode (.new .ad1), fun b ad hb => refusedByEncoding_new ad hb,
    fun ad s hs hr => ⟨fun ho => ?_, fun ho => ?_⟩⟩
  · rw [exec_new_of_idle ad hs, if_neg (by simp [ho]),
      respondOk_zero_of_idle (s := { s with owned := true, devaddr := deviceAddress ad }) hs hr]
    cases ad with
    | ad0 => rfl
    | ad1 => rfl
  · rw [exec_new_of_idle ad hs, if_pos ho, raiseIllegal_of_idle hs hr]

/-- Settles O12: every other word is no command's (`refusedByEncoding_formatN`), and the meaning in `IDLE` (`exec_drop_of_idle`). -/
theorem dropReleasesTheHandle : Obligations.DropReleasesTheHandle := by
  refine ⟨decode_encode .drop, fun b => refusedByEncoding_formatN (i := .drop) (by decide),
    fun s hs hr => ⟨fun ho => ?_, fun ho => ?_⟩⟩
  · rw [exec_drop_of_idle hs, if_pos ho, respondOk_zero_of_idle (s := { s with owned := false }) hs hr]
  · rw [exec_drop_of_idle hs, if_neg (by simp [ho]), raiseIllegal_of_idle hs hr]

/-- Settles O13: the command's one transaction is the write (`actsAsWrite_of_transactions`), whose answer sets the mode
(`pmode_of_answered`). -/
theorem setAccelLowNoiseModeWritesThePattern : Obligations.SetAccelLowNoiseModeWritesThePattern := by
  refine ⟨decode_encode .setAccelLowNoiseMode,
    fun b => refusedByEncoding_formatN (i := .setAccelLowNoiseMode) (by decide),
    actsAsWrite_of_transactions (i := .setAccelLowNoiseMode) fun _ => rfl,
    fun s t hq => ⟨fun ht => pmode_of_answered hq ht, fun e ht => pmode_of_answered hq ht⟩⟩

/-- Settles O14: the command's two transactions are the reads of the pair (`actsAsComposedRead_of_transactions`). -/
theorem readAccelXReadsItsPair : Obligations.ReadAccelXReadsItsPair :=
  ⟨decode_encode .readAccelX, fun b => refusedByEncoding_formatN (i := .readAccelX) (by decide),
    actsAsComposedRead_of_transactions (i := .readAccelX) fun _ => rfl⟩

/-- Settles O15: the command's two transactions are the reads of the pair (`actsAsComposedRead_of_transactions`). -/
theorem readAccelYReadsItsPair : Obligations.ReadAccelYReadsItsPair :=
  ⟨decode_encode .readAccelY, fun b => refusedByEncoding_formatN (i := .readAccelY) (by decide),
    actsAsComposedRead_of_transactions (i := .readAccelY) fun _ => rfl⟩

/-- Settles O16: the command's two transactions are the reads of the pair (`actsAsComposedRead_of_transactions`). -/
theorem readAccelZReadsItsPair : Obligations.ReadAccelZReadsItsPair :=
  ⟨decode_encode .readAccelZ, fun b => refusedByEncoding_formatN (i := .readAccelZ) (by decide),
    actsAsComposedRead_of_transactions (i := .readAccelZ) fun _ => rfl⟩

end Sys2Proof.Machine
end

section
/-!
SUPPORT. A relation of states that the shared operations and the transport's turn keep, kept by every meaning and by every run: what a
noninterference statement (R98) and an exchange of names (R100) both come to.
-/

namespace Sys2Proof

/-- The command with the address selection of a `NEW` renamed by `σ`. -/
def Instr.mapSelect (σ : AddrSelect → AddrSelect) : Instr → Instr
  | .new ad => .new (σ ad)
  | i => i

theorem Instr.mapSelect_id : Instr.mapSelect id = id := by
  funext i
  cases i <;> rfl

end Sys2Proof

namespace Sys2Proof.Machine

/-! ## Outcomes up to a relation -/

/-- The outcomes agree up to `R`: next states that `R` relates, or the same stop. -/
inductive Agree (R : State → State → Prop) : Outcome → Outcome → Prop where
  | next {s t : State} : R s t → Agree R (.next s) (.next t)
  | fault (r : Fault) : Agree R (.fault r) (.fault r)
  | refused (r : Refusal) : Agree R (.refused r) (.refused r)

/-- The turns of the transport agree up to `R`: the same answer or the same silence, in states that `R` relates, or the same stop. -/
inductive Turn.Agree (R : State → State → Prop) : Turn → Turn → Prop where
  | silent {s t : State} : R s t → Turn.Agree R (.silent s) (.silent t)
  | answered (r : BusAnswer) {s t : State} : R s t → Turn.Agree R (.answered r s) (.answered r t)
  | noRequest : Turn.Agree R .noRequest .noRequest
  | refused (why : Refusal) : Turn.Agree R (.refused why) (.refused why)

/-- The operation takes related states to outcomes that agree. -/
def Simulates (R : State → State → Prop) (f : State → Outcome) : Prop := ∀ s t, R s t → Agree R (f s) (f t)

theorem Agree.mapNext_eq {α : Type} {R : State → State → Prop} {f g : State → α} {x y : Outcome} (h : Agree R x y)
    (hfg : ∀ s t, R s t → f s = g t) : mapNext f x = mapNext g y := by
  cases h with
  | next hR => exact congrArg Host.Outcome.next (hfg _ _ hR)
  | fault => rfl
  | refused => rfl

/-- A relation that every step keeps is kept by every run. -/
theorem run_simulates {R : State → State → Prop} (hstep : Simulates R step) (n : Nat) : Simulates R (run n) := by
  induction n with
  | zero => exact fun s t h => .next h
  | succ n ih =>
    intro s t h
    have hst := hstep s t h
    simp only [run]
    generalize step s = x, step t = y at hst
    cases hst with
    | next h' => exact ih _ _ h'
    | fault => exact .fault _
    | refused => exact .refused _

/-! ## The relation -/

/-- `R` relates states of the same phase, handle, latch and `HI`, whose block may differ by a renaming `σ` of the selected addresses,
and the shared operations and the transport's turn keep it. -/
structure BlockSimulation (σ : AddrSelect → AddrSelect) (R : State → State → Prop) : Prop where
  seq_eq {s t : State} : R s t → s.seq = t.seq
  owned_eq {s t : State} : R s t → s.owned = t.owned
  cmd_eq {s t : State} : R s t → s.cmd = t.cmd
  hi_eq {s t : State} : R s t → s.hi = t.hi
  keeps_endCommand {s t : State} (st ec : Byte) (v : Reading) : R s t → R (endCommand st ec v s) (endCommand st ec v t)
  keeps_latchCommand {s t : State} (w : CommandWord) : R s t → R (latchCommand w s) (latchCommand w t)
  keeps_issueWrite {s t : State} (a : RegAddr) (v : Byte) (p : Phase) : R s t →
    R (issue (memWrite s.devaddr a v) p s) (issue (memWrite t.devaddr a v) p t)
  keeps_issueRead {s t : State} (a : RegAddr) (p : Phase) : R s t →
    R (issue (memRead s.devaddr a) p s) (issue (memRead t.devaddr a) p t)
  keeps_hi {s t : State} (u : Byte) : R s t → R { s with hi := u } { t with hi := u }
  keeps_construct {s t : State} (ad : AddrSelect) : R s t →
    R { s with owned := true, devaddr := deviceAddress (σ ad) } { t with owned := true, devaddr := deviceAddress ad }
  keeps_release {s t : State} : R s t → R { s with owned := false } { t with owned := false }
  turn_agree {s t : State} : R s t → Turn.Agree R (transportTurn s) (transportTurn t)

/-! ## The meanings -/

section
variable {σ : AddrSelect → AddrSelect} {R : State → State → Prop} {s t : State}

theorem BlockSimulation.await_agree (B : BlockSimulation σ R) {k : List Byte → State → Outcome} (hk : ∀ data, Simulates R (k data))
    (h : R s t) : Agree R (await s k) (await t k) := by
  have hturn := B.turn_agree h
  unfold await
  generalize transportTurn s = x, transportTurn t = y at hturn
  cases hturn with
  | silent h' => exact .next h'
  | answered r h' =>
    cases r with
    | ok data => exact hk data _ _ h'
    | err e => exact .next (B.keeps_endCommand _ _ _ h')
  | noRequest => exact .fault _
  | refused => exact .refused _

theorem BlockSimulation.acceptTransfer_agree (B : BlockSimulation σ R) (w : CommandWord) {q : DevAddr → BusRequest}
    (hq : ∀ {s t}, R s t → R (issue (q s.devaddr) .xfer1 s) (issue (q t.devaddr) .xfer1 t)) (h : R s t) :
    Agree R (acceptTransfer w (q s.devaddr) s) (acceptTransfer w (q t.devaddr) t) := by
  unfold acceptTransfer
  rw [B.owned_eq h]
  split
  · exact .next (hq (B.keeps_latchCommand w h))
  · exact .next (B.keeps_endCommand _ _ _ h)

theorem BlockSimulation.runWrite_simulates (B : BlockSimulation σ R) (w : CommandWord) (reg : RegAddr) (value : Byte) :
    Simulates R (runWrite w reg value) := by
  intro s t h
  unfold runWrite
  rw [B.seq_eq h]
  cases t.seq with
  | idle => exact B.acceptTransfer_agree w (q := fun d => memWrite d reg value) (B.keeps_issueWrite reg value .xfer1) h
  | xfer1 =>
    refine B.await_agree (fun data s t h => ?_) h
    split
    · exact .next (B.keeps_endCommand _ _ _ h)
    · exact .refused _
  | xfer2 => exact .fault _

theorem BlockSimulation.runRead_simulates (B : BlockSimulation σ R) (w : CommandWord) (reg : RegAddr) : Simulates R (runRead w reg) := by
  intro s t h
  unfold runRead
  rw [B.seq_eq h]
  cases t.seq with
  | idle => exact B.acceptTransfer_agree w (q := fun d => memRead d reg) (B.keeps_issueRead reg .xfer1) h
  | xfer1 =>
    refine B.await_agree (fun data s t h => ?_) h
    split
    · exact .next (B.keeps_endCommand _ _ _ h)
    · exact .refused _
  | xfer2 => exact .fault _

theorem BlockSimulation.runComposedRead_simulates (B : BlockSimulation σ R) (w : CommandWord) (upper lower : RegAddr) :
    Simulates R (runComposedRead w upper lower) := by
  intro s t h
  unfold runComposedRead
  rw [B.seq_eq h]
  cases t.seq with
  | idle => exact B.acceptTransfer_agree w (q := fun d => memRead d upper) (B.keeps_issueRead upper .xfer1) h
  | xfer1 =>
    refine B.await_agree (fun data s t h => ?_) h
    split
    · exact .next (B.keeps_issueRead lower .xfer2 (B.keeps_hi _ h))
    · exact .refused _
  | xfer2 =>
    refine B.await_agree (fun data s t h => ?_) h
    split
    · rw [B.hi_eq h]
      exact .next (B.keeps_endCommand _ _ _ h)
    · exact .refused _

theorem BlockSimulation.exec_new_agree (B : BlockSimulation σ R) (ad : AddrSelect) (h : R s t) :
    Agree R (exec (.new (σ ad)) s) (exec (.new ad) t) := by
  by_cases ht : t.seq = .idle
  · rw [exec_new_of_idle (σ ad) ((B.seq_eq h).trans ht), exec_new_of_idle ad ht, B.owned_eq h]
    split
    · exact .next (B.keeps_endCommand _ _ _ h)
    · exact .next (B.keeps_endCommand _ _ _ (B.keeps_construct ad h))
  · rw [exec_new_of_busy (σ ad) (B.seq_eq h ▸ ht), exec_new_of_busy ad ht]
    exact .fault _

theorem BlockSimulation.exec_drop_simulates (B : BlockSimulation σ R) : Simulates R (exec .drop) := by
  intro s t h
  by_cases ht : t.seq = .idle
  · rw [exec_drop_of_idle ((B.seq_eq h).trans ht), exec_drop_of_idle ht, B.owned_eq h]
    split
    · exact .next (B.keeps_endCommand _ _ _ (B.keeps_release h))
    · exact .next (B.keeps_endCommand _ _ _ h)
  · rw [exec_drop_of_busy (B.seq_eq h ▸ ht), exec_drop_of_busy ht]
    exact .fault _

theorem BlockSimulation.exec_agree (B : BlockSimulation σ R) (i : Instr) (h : R s t) :
    Agree R (exec (i.mapSelect σ) s) (exec i t) := by
  cases i with
  | new ad => exact B.exec_new_agree ad h
  | drop => exact B.exec_drop_simulates s t h
  | writeRegister reg value => exact B.runWrite_simulates _ _ _ s t h
  | readRegister reg => exact B.runRead_simulates _ _ s t h
  | readRegisterAsU16 upper lower => exact B.runComposedRead_simulates _ _ _ s t h
  | setAccelLowNoiseMode => exact B.runWrite_simulates _ _ _ s t h
  | readAccelX => exact B.runComposedRead_simulates _ _ _ s t h
  | readAccelY => exact B.runComposedRead_simulates _ _ _ s t h
  | readAccelZ => exact B.runComposedRead_simulates _ _ _ s t h

/-- While busy no command reads a selection: `NEW` has no such phase (R91). -/
theorem exec_mapSelect_of_busy (i : Instr) (hs : s.seq ≠ .idle) : exec (i.mapSelect σ) s = exec i s := by
  cases i with
  | new ad => exact (exec_new_of_busy (σ ad) hs).trans (exec_new_of_busy ad hs).symm
  | drop => rfl
  | writeRegister reg value => rfl
  | readRegister reg => rfl
  | readRegisterAsU16 upper lower => rfl
  | setAccelLowNoiseMode => rfl
  | readAccelX => rfl
  | readAccelY => rfl
  | readAccelZ => rfl

/-- A word and the word of the renamed command, each at the ready port of one of the states (R59). -/
theorem BlockSimulation.acceptWord_agree (B : BlockSimulation σ R) {w w' : CommandWord}
    (hw : decode w' = (decode w).map (Instr.mapSelect σ)) (h : R s t) : Agree R (acceptWord w' s) (acceptWord w t) := by
  unfold acceptWord
  rw [hw]
  cases decode w with
  | ok i => exact B.exec_agree i h
  | error e => exact .next (B.keeps_endCommand _ _ _ h)

/-- The waiting sequencer's turn; the latch holds the same word in both states (R18). -/
theorem BlockSimulation.sequencerTurn_simulates (B : BlockSimulation σ R) : Simulates R sequencerTurn := by
  intro s t h
  have hexec (i : Instr) (hs : s.seq ≠ .idle) : Agree R (exec i s) (exec i t) := by
    rw [← exec_mapSelect_of_busy (σ := σ) i hs]
    exact B.exec_agree i h
  unfold sequencerTurn
  rw [← B.seq_eq h, ← B.cmd_eq h]
  split
  · exact .next h
  all_goals
    rename_i hs
    split
    · exact hexec _ (by simp [hs])
    · exact .fault _

end

end Sys2Proof.Machine
end

section
/-!
The sensor's mode and registers are never read by the block (R24, R98, R119).
-/

namespace Sys2Proof.Machine

/-- The two states are alike but for the sensor's mode and, unless the ideal device answers, what is known of its registers. -/
def SameButSensor (s t : State) : Prop :=
  ∃ p m, s = { t with pmode := p, reg := m } ∧ (m = t.reg ∨ ∀ dev₀, t.transport ≠ .ideal dev₀)

theorem SameButSensor.moves_eq {s t : State} (h : SameButSensor s t) : s.moves = t.moves := by
  obtain ⟨p, m, rfl, -⟩ := h
  rfl

theorem SameButSensor.ready_eq {s t : State} (h : SameButSensor s t) : s.ready = t.ready := by
  obtain ⟨p, m, rfl, -⟩ := h
  rfl

theorem SameButSensor.blockView_eq {s t : State} (h : SameButSensor s t) : s.blockView = t.blockView := by
  obtain ⟨p, m, rfl, -⟩ := h
  rfl

theorem SameButSensor.takeMove {s t : State} (h : SameButSensor s t) (rest : List Move) :
    SameButSensor { s with moves := rest } { t with moves := rest } := by
  obtain ⟨p, m, rfl, hm⟩ := h
  exact ⟨p, m, rfl, hm⟩

/-- A reset forgets the registers and puts the unconstrained transport in, or leaves both as they were (R123, R124). -/
theorem SameButSensor.reset {s t : State} (h : SameButSensor s t) : SameButSensor (resetBlock s) (resetBlock t) := by
  obtain ⟨p, m, rfl, hm⟩ := h
  refine ⟨_, _, rfl, ?_⟩
  cases hq : t.req with
  | none => simpa [resetBlock, hq] using hm
  | some q => simp [resetBlock, hq]

/-- The answer is the same: only the ideal device reads the registers, and it is told the same ones (R55, R57, R58). -/
theorem SameButSensor.turn_agree {s t : State} (h : SameButSensor s t) :
    Turn.Agree SameButSensor (transportTurn s) (transportTurn t) := by
  obtain ⟨p, m, rfl, hm⟩ := h
  cases hq : t.req with
  | none =>
    simp only [transportTurn, hq]
    exact .noRequest
  | some q =>
    cases ht : t.transport with
    | oracle =>
      simp only [transportTurn, hq, ht]
      split
      · exact .silent ⟨p, m, rfl, .inr (by simp)⟩
      · exact .answered _ ⟨_, _, rfl, .inr (by simp)⟩
    | scripted script =>
      cases script with
      | nil =>
        simp only [transportTurn, hq, ht]
        exact .refused _
      | cons r rest =>
        simp only [transportTurn, hq, ht]
        exact .answered _ ⟨_, _, rfl, .inr (by simp)⟩
    | ideal dev₀ =>
      obtain rfl : m = t.reg := hm.resolve_right fun hn => hn dev₀ ht
      simp only [transportTurn, hq, ht]
      split
      · exact .answered _ ⟨_, _, rfl, .inl rfl⟩
      · exact .refused _

/-- The shared operations write the block alone, so they keep what the two states have in common. -/
theorem blockSimulation_sameButSensor : BlockSimulation id SameButSensor where
  seq_eq := by rintro _ t ⟨p, m, rfl, -⟩; rfl
  owned_eq := by rintro _ t ⟨p, m, rfl, -⟩; rfl
  cmd_eq := by rintro _ t ⟨p, m, rfl, -⟩; rfl
  hi_eq := by rintro _ t ⟨p, m, rfl, -⟩; rfl
  keeps_endCommand := by rintro _ t st ec v ⟨p, m, rfl, hm⟩; exact ⟨p, m, rfl, hm⟩
  keeps_latchCommand := by rintro _ t w ⟨p, m, rfl, hm⟩; exact ⟨p, m, rfl, hm⟩
  keeps_issueWrite := by rintro _ t a v ph ⟨p, m, rfl, hm⟩; exact ⟨p, m, rfl, hm⟩
  keeps_issueRead := by rintro _ t a ph ⟨p, m, rfl, hm⟩; exact ⟨p, m, rfl, hm⟩
  keeps_hi := by rintro _ t u ⟨p, m, rfl, hm⟩; exact ⟨p, m, rfl, hm⟩
  keeps_construct := by rintro _ t ad ⟨p, m, rfl, hm⟩; exact ⟨p, m, rfl, hm⟩
  keeps_release := by rintro _ t ⟨p, m, rfl, hm⟩; exact ⟨p, m, rfl, hm⟩
  turn_agree := SameButSensor.turn_agree

theorem step_simulates_sameButSensor : Simulates SameButSensor step := by
  intro s t h
  have B := blockSimulation_sameButSensor
  unfold step nextMove
  rw [h.moves_eq, h.ready_eq]
  split
  · exact B.sequencerTurn_simulates s t h
  · rename_i w rest _
    split
    · exact B.acceptWord_agree (by rw [Instr.mapSelect_id, Except.map_id]; rfl) (h.takeMove rest)
    · exact B.sequencerTurn_simulates s t h
  · rename_i rest _
    exact .next (h.takeMove rest).reset
  · rename_i rest _
    exact B.sequencerTurn_simulates _ _ (h.takeMove rest)
  · obtain ⟨p, m, rfl, hm⟩ := h
    exact .next ⟨p, _, rfl, hm.imp_left fun he => by rw [he]⟩
  · obtain ⟨p, m, rfl, -⟩ := h
    exact .next ⟨.idle, [], rfl, .inl rfl⟩

/-- Settles O53: the steps keep what the two states have in common (`step_simulates_sameButSensor`), and so do the runs. -/
theorem blockNeverReadsTheSensorMode : Obligations.BlockNeverReadsTheSensorMode := by
  intro n s p m
  have hview {s' : State} (h : SameButSensor s' s) : mapNext State.blockView (run n s') = mapNext State.blockView (run n s) :=
    (run_simulates step_simulates_sameButSensor n s' s h).mapNext_eq fun _ _ => SameButSensor.blockView_eq
  exact ⟨hview ⟨p, s.reg, rfl, .inl rfl⟩, fun hn => hview ⟨p, m, rfl, .inr hn⟩⟩

end Sys2Proof.Machine
end

section
/-!
SUPPORT. The exchange of the two device addresses, of a request, an answer, a word and the transport's turn (R17, R67, R100).
-/

namespace Sys2Proof

/-! ## Addresses, requests and words -/

/-- The other selection. -/
def AddrSelect.other : AddrSelect → AddrSelect
  | .ad0 => .ad1
  | .ad1 => .ad0

@[simp] theorem DevAddr.swap_swap (d : DevAddr) : DevAddr.swap (DevAddr.swap d) = d := by
  revert d
  decide

theorem DevAddr.swap_inj {d e : DevAddr} : DevAddr.swap d = DevAddr.swap e ↔ d = e :=
  (Function.Involutive.injective DevAddr.swap_swap).eq_iff

@[simp] theorem BusRequest.dev_swap (q : BusRequest) : q.swap.dev = DevAddr.swap q.dev := by cases q <;> rfl

/-- The exchanged word is the word of the command with the other selection (R67). -/
theorem decode_swapWord (w : CommandWord) : decode (swapWord w) = (decode w).map (Instr.mapSelect AddrSelect.other) := by
  unfold swapWord
  split
  · subst w
    rfl
  split
  · subst w
    rfl
  · rename_i h₀ h₁
    cases hd : decode w with
    | error e => rfl
    | ok i =>
      have hw := encode_of_decode hd
      cases i with
      | new ad =>
        cases ad with
        | ad0 => exact absurd hw.symm h₀
        | ad1 => exact absurd hw.symm h₁
      | drop => rfl
      | writeRegister reg value => rfl
      | readRegister reg => rfl
      | readRegisterAsU16 upper lower => rfl
      | setAccelLowNoiseMode => rfl
      | readAccelX => rfl
      | readAccelY => rfl
      | readAccelZ => rfl

namespace Machine

@[simp] theorem deviceAddress_other (ad : AddrSelect) : deviceAddress ad.other = DevAddr.swap (deviceAddress ad) := by
  cases ad <;> rfl

/-! ## The environment -/

/-- An answered request does to the sensor's mode what the exchanged one does. -/
@[simp] theorem sensorMode_swap (q : BusRequest) (r : BusAnswer) (p : PowerMode) : sensorMode q.swap r p = sensorMode q r p := by
  cases q with
  | busWrite dev bytes => cases r <;> rfl
  | busWriteRead dev wbytes n => rfl

/-- An answered request leaves of the sensor's registers known what the exchanged one leaves. -/
@[simp] theorem sensorKnown_swap (q : BusRequest) (r : BusAnswer) (m : Memory) : sensorKnown q.swap r m = sensorKnown q r m := by
  cases r with
  | ok data => cases q <;> rfl
  | err e =>
    cases q with
    | busWrite dev bytes => cases bytes <;> rfl
    | busWriteRead dev wbytes n => rfl

/-- The ideal device at the other address does with the exchanged request what it does here with the request (R58). -/
@[simp] theorem idealAnswer_swap (dev₀ : DevAddr) (q : BusRequest) (m : Memory) (k : Nat) :
    idealAnswer (DevAddr.swap dev₀) q.swap m k = idealAnswer dev₀ q m k := by
  unfold idealAnswer
  rw [BusRequest.dev_swap]
  simp only [DevAddr.swap_inj]
  cases q with
  | busWrite dev bytes => rcases bytes with _ | ⟨a, _ | ⟨v, _ | ⟨x, rest⟩⟩⟩ <;> rfl
  | busWriteRead dev wbytes n => rcases wbytes with _ | ⟨a, _ | ⟨x, rest⟩⟩ <;> rcases n with _ | _ | n <;> rfl

@[simp] theorem recordAnswer_swapAddress (q : BusRequest) (r : BusAnswer) (s : State) :
    recordAnswer q.swap r s.swapAddress = (recordAnswer q r s).swapAddress := by
  simp [recordAnswer, State.swapAddress]

/-! ## The relation -/

/-- The states are one with the two addresses exchanged, under a transport whose answers do not depend on the address, and with no
reset to come. -/
def Swapped (s t : State) : Prop := s = t.swapAddress ∧ t.transport ≠ .oracle ∧ .hostReset ∉ t.moves

/-- The scripted mock bus does not look at the request, and the ideal device has moved with the address (R57, R58). -/
theorem Swapped.turn_agree {s t : State} (h : Swapped s t) : Turn.Agree Swapped (transportTurn s) (transportTurn t) := by
  obtain ⟨rfl, htr, hreset⟩ := h
  cases hq : t.req with
  | none =>
    have hq' : t.swapAddress.req = none := by simp [State.swapAddress, hq]
    simp only [transportTurn, hq, hq']
    exact .noRequest
  | some q =>
    have hq' : t.swapAddress.req = some q.swap := by simp [State.swapAddress, hq]
    cases ht : t.transport with
    | oracle => exact absurd ht htr
    | scripted script =>
      have ht' : t.swapAddress.transport = .scripted script := by simp [State.swapAddress, ht, Transport.swap]
      cases script with
      | nil =>
        rw [transportTurn_scripted_nil hq ht, transportTurn_scripted_nil hq' ht']
        exact .refused _
      | cons r rest =>
        rw [transportTurn_scripted hq ht, transportTurn_scripted hq' ht', sensorKnown_swap]
        exact .answered r ⟨recordAnswer_swapAddress q r { t with transport := .scripted rest, reg := sensorKnown q r t.reg },
          nofun, hreset⟩
    | ideal dev₀ =>
      have ht' : t.swapAddress.transport = .ideal (DevAddr.swap dev₀) := by simp [State.swapAddress, ht, Transport.swap]
      have ha : idealAnswer (DevAddr.swap dev₀) q.swap t.swapAddress.reg t.swapAddress.tick = idealAnswer dev₀ q t.reg t.tick :=
        idealAnswer_swap ..
      cases hans : idealAnswer dev₀ q t.reg t.tick with
      | some x =>
        obtain ⟨r, m, k⟩ := x
        rw [transportTurn_ideal hq ht hans, transportTurn_ideal hq' ht' (ha.trans hans)]
        exact .answered r ⟨recordAnswer_swapAddress q r { t with reg := m, tick := k }, htr, hreset⟩
      | none =>
        simp only [transportTurn, hq, hq', ht, ht', ha, hans]
        exact .refused _

/-- The shared operations do with the other address what they do with the one. -/
theorem blockSimulation_swapped : BlockSimulation AddrSelect.other Swapped where
  seq_eq := by rintro _ t ⟨rfl, -⟩; rfl
  owned_eq := by rintro _ t ⟨rfl, -⟩; rfl
  cmd_eq := by rintro _ t ⟨rfl, -⟩; rfl
  hi_eq := by rintro _ t ⟨rfl, -⟩; rfl
  keeps_endCommand := by rintro _ t st ec v ⟨rfl, h⟩; exact ⟨rfl, h⟩
  keeps_latchCommand := by rintro _ t w ⟨rfl, h⟩; exact ⟨rfl, h⟩
  keeps_issueWrite := by rintro _ t a v p ⟨rfl, h⟩; exact ⟨rfl, h⟩
  keeps_issueRead := by rintro _ t a p ⟨rfl, h⟩; exact ⟨rfl, h⟩
  keeps_hi := by rintro _ t u ⟨rfl, h⟩; exact ⟨rfl, h⟩
  keeps_construct := by rintro _ t ad ⟨rfl, h⟩; exact ⟨by rw [deviceAddress_other]; rfl, h⟩
  keeps_release := by rintro _ t ⟨rfl, h⟩; exact ⟨rfl, h⟩
  turn_agree := Swapped.turn_agree

theorem Swapped.takeMove {t : State} {m : Move} {rest : List Move} (h : Swapped t.swapAddress t) (hm : t.moves = m :: rest) :
    Swapped { t.swapAddress with moves := rest.map Move.swap } { t with moves := rest } := by
  obtain ⟨-, htr, hreset⟩ := h
  exact ⟨rfl, htr, fun hr => hreset (hm ▸ .tail _ hr)⟩

theorem step_simulates_swapped : Simulates Swapped step := by
  intro s t h
  have B := blockSimulation_swapped
  have hseq := B.sequencerTurn_simulates s t h
  have ⟨heq, _, hreset⟩ := h
  subst heq
  cases hm : t.moves with
  | nil =>
    have hm' : t.swapAddress.moves = [] := by simp [State.swapAddress, hm]
    rwa [step_no_moves hm, step_no_moves hm']
  | cons m rest =>
    have hm' : t.swapAddress.moves = m.swap :: rest.map Move.swap := by simp [State.swapAddress, hm]
    have hnext := h.takeMove hm
    have hready : t.swapAddress.ready = t.ready := rfl
    unfold step nextMove
    cases m with
    | present w =>
      simp only [hm, hm', Move.swap, hready]
      split
      · exact B.acceptWord_agree (decode_swapWord w) hnext
      · exact hseq
    | hostReset => exact absurd (hm ▸ .head _) hreset
    | transport =>
      simp only [hm, hm', Move.swap]
      exact B.sequencerTurn_simulates _ _ hnext
    | sample cells =>
      simp only [hm, hm', Move.swap]
      exact .next ⟨rfl, hnext.2⟩
    | sensorPowerOn =>
      simp only [hm, hm', Move.swap]
      exact .next ⟨rfl, hnext.2⟩

/-- A run of any length commutes with the exchange. -/
theorem run_swapAddress (n : Nat) {s : State} (htr : s.transport ≠ .oracle) (hreset : .hostReset ∉ s.moves) :
    run n s.swapAddress = mapNext State.swapAddress (run n s) := by
  have hrun := (run_simulates step_simulates_swapped n _ s ⟨rfl, htr, hreset⟩).mapNext_eq (f := id) fun _ _ h => h.1
  rw [← hrun]
  cases run n s.swapAddress <;> rfl

end Machine

end Sys2Proof
end

section
/-!
The statement about the choice of the device address (R100).
-/

namespace Sys2Proof.Machine

/-- `NEW` presented to an idle block without a handle, as a step (R59, R91). -/
theorem step_new {s : State} {ad : AddrSelect} {rest : List Move} (hs : s.seq = .idle) (ho : s.owned = false)
    (hm : s.moves = .present (encode (.new ad)) :: rest) :
    step s = .next (respondOk 0 { s with moves := rest, owned := true, devaddr := deviceAddress ad }) := by
  rw [step_present_ready hs (decode_encode _) hm, exec_new_of_idle ad (s := { s with moves := rest }) hs]
  exact congrArg _ (if_neg (by simp [ho]))

/-- Settles O55: a run commutes with the exchange (`run_swapAddress`); the two words of `NEW` lead from one state to two that are
one another's exchange. -/
theorem deviceAddressIsAllThatAdChanges : Obligations.DeviceAddressIsAllThatAdChanges := by
  refine ⟨fun n s => run_swapAddress n, fun n s script later hs ho _ hlog hreset => ?_⟩
  have hstep (ad : AddrSelect) (rest : List Move) :=
    step_new (s := { s with transport := .scripted script, moves := .present (encode (.new ad)) :: rest }) hs ho rfl
  calc run (n + 1) _
    _ = run n _ := run_next n (hstep .ad1 (later.map Move.swap))
    _ = run n (State.swapAddress _) := congrArg (run n) (by cases s; cases hlog; rfl)
    _ = mapNext State.swapAddress (run n _) := run_swapAddress n (by simp) hreset
    _ = _ := congrArg _ (run_next n (hstep .ad0 later)).symm

end Sys2Proof.Machine
end

section
/-!
SUPPORT. What ends a command and what does not stop the block: refusals by state, the one cause of a bus error, the outcome of a step
from every state of the invariant, waiting in silence, and what a step makes of the known registers (R101 to R113).
-/

namespace Sys2Proof.Machine

/-! ## Refusals by state (R105) -/

/-- Without a handle every command but `NEW` is refused. -/
theorem exec_refuses_without_handle {i : Instr} {s : State} (hs : s.seq = .idle) (ho : s.owned = false) (hn : ∀ ad, i ≠ .new ad) :
    exec i s = .next (raiseIllegal s) := by
  cases i with
  | new ad => exact absurd rfl (hn ad)
  | drop => rw [exec_drop_of_idle hs, if_neg (by simp [ho])]
  | writeRegister reg value => exact exec_refuses hs ho rfl
  | readRegister reg => exact exec_refuses hs ho rfl
  | readRegisterAsU16 upper lower => exact exec_refuses hs ho rfl
  | setAccelLowNoiseMode => exact exec_refuses hs ho rfl
  | readAccelX => exact exec_refuses hs ho rfl
  | readAccelY => exact exec_refuses hs ho rfl
  | readAccelZ => exact exec_refuses hs ho rfl

/-! ## The cause of a bus error (R102, R103) -/

/-- No acceptance answers `BUS_ERROR`. -/
theorem Accepted.status_ne_busError {i : Instr} {s t : State} (h : Accepted i s t) (hv : t.rspValid = true) :
    statusField t.rsp ≠ 0x01#8 := by
  cases h with
  | illegal => simp
  | constructed => simp
  | released => simp
  | issued => simp at hv

/-- A waiting command answers `BUS_ERROR` on an error of the transport and on nothing else. -/
theorem Continued.busError {i : Instr} {s t : State} (h : Continued i s t) (hs : s.rspValid = false) (hv : t.rspValid = true)
    (hst : statusField t.rsp = 0x01#8) :
    ∃ q e u, (i.transactions s.devaddr)[s.seq.index]? = some q ∧ transportTurn s = .answered (.err e) u ∧ t = raiseBusError e u := by
  cases h with
  | held q t _ ht =>
    obtain ⟨-, -, rfl⟩ := transportTurn_silent ht
    simp [hs] at hv
  | failed q e u hq ht => exact ⟨q, e, u, hq, ht, rfl⟩
  | finished => simp at hst
  | second q₁ q₂ b u _ _ _ ht =>
    obtain ⟨q, tr, m, k, -, rfl, -, -⟩ := transportTurn_answered ht
    simp [hs] at hv

/-! ## The block is never stopped (R113) -/

/-- Every command has a next state in `IDLE`, where it is accepted, is over or is refused (R59, R104). -/
theorem exec_next_of_idle {s : State} (i : Instr) (hs : s.seq = .idle) : ∃ t, exec i s = .next t := by
  have transfer {q} (hq : (i.transactions s.devaddr)[0]? = some q) : ∃ t, exec i s = .next t := by
    cases ho : s.owned with
    | true => exact ⟨_, exec_accepts hs ho hq⟩
    | false => exact ⟨_, exec_refuses hs ho hq⟩
  cases i with
  | new ad => exact ⟨_, exec_new_of_idle ad hs⟩
  | drop => exact ⟨_, exec_drop_of_idle hs⟩
  | writeRegister reg value => exact transfer rfl
  | readRegister reg => exact transfer rfl
  | readRegisterAsU16 upper lower => exact transfer rfl
  | setAccelLowNoiseMode => exact transfer rfl
  | readAccelX => exact transfer rfl
  | readAccelY => exact transfer rfl
  | readAccelZ => exact transfer rfl

theorem acceptWord_next_of_idle {s : State} (w : CommandWord) (hs : s.seq = .idle) : ∃ t, acceptWord w s = .next t := by
  unfold acceptWord
  split
  · exact exec_next_of_idle _ hs
  · exact ⟨_, rfl⟩

/-- The transaction of the sequencer's phase is the command's last, or the first of two. -/
theorem last_or_first_of_two {i : Instr} {dev : DevAddr} {p : Phase} {q : BusRequest} (hp : p ≠ .idle)
    (hq : (i.transactions dev)[p.index]? = some q) :
    (i.transactions dev).length = p.index + 1 ∨ (p = .xfer1 ∧ ∃ q₂, (i.transactions dev)[1]? = some q₂) := by
  have hlt : p.index < (i.transactions dev).length := (List.getElem?_eq_some_iff.mp hq).1
  have hle : (i.transactions dev).length ≤ 2 := by cases i <;> simp [Instr.transactions]
  cases p with
  | idle => exact absurd rfl hp
  | xfer1 =>
    by_cases h : 1 < (i.transactions dev).length
    · exact .inr ⟨rfl, _, List.getElem?_eq_getElem h⟩
    · exact .inl (by simp only [Phase.index] at hlt ⊢; omega)
  | xfer2 => exact .inl (by simp only [Phase.index] at hlt ⊢; omega)

/-- An `Ok` answer with the bytes asked for takes a waiting command on (R19, R135). -/
theorem exec_next_of_ok {i : Instr} {s t : State} {q : BusRequest} {data : List Byte} (hs : s.seq ≠ .idle)
    (hq : (i.transactions s.devaddr)[s.seq.index]? = some q) (ht : transportTurn s = .answered (.ok data) t)
    (hn : data.length = q.readCount) : ∃ u, exec i s = .next u := by
  obtain ⟨k, hk, -, hlast, hfirst⟩ := exec_waits hs hq
  rw [hk s rfl, await_ok ht]
  obtain hlen | ⟨hp, q₂, hq₂⟩ := last_or_first_of_two hs hq
  · obtain ⟨v, hv⟩ := hlast hlen data hn
    exact ⟨_, hv t⟩
  · obtain ⟨hone, hnext⟩ := hfirst q₂ hp hq₂
    obtain ⟨b, rfl⟩ := List.length_eq_one_iff.mp (hn.trans hone)
    exact ⟨_, hnext b t (transportTurn_answered_devaddr ht)⟩

/-- The outcome is a next state, or a refusal for a mistake in a reference environment, which the unconstrained transport does not
make (R55, R57). No fault is one. -/
def GoesOn (s : State) (o : Outcome) : Prop := (∃ t, o = .next t) ∨ (s.transport ≠ .oracle ∧ ∃ why, o = .refused why)

/-- A waiting command with its transaction outstanding goes on. -/
theorem exec_busy_goesOn {i : Instr} {s : State} {q : BusRequest} (hs : s.seq ≠ .idle)
    (hq : (i.transactions s.devaddr)[s.seq.index]? = some q) (hreq : s.req = some q) : GoesOn s (exec i s) := by
  obtain ⟨k, hk, hshape, -⟩ := exec_waits hs hq
  cases ht : transportTurn s with
  | silent t => exact .inl ⟨t, by rw [hk s rfl, await_silent ht]⟩
  | noRequest => simp [transportTurn_noRequest ht] at hreq
  | refused why =>
    exact .inr ⟨fun ho => transportTurn_oracle_not_refused ho why ht, why, by rw [hk s rfl, await_refused ht]⟩
  | answered r t =>
    cases r with
    | err e => exact .inl ⟨_, exec_error hs hq ht⟩
    | ok data =>
      by_cases hn : data.length = q.readCount
      · exact .inl (exec_next_of_ok hs hq ht hn)
      · refine .inr ⟨fun ho => hn ?_, _, by rw [hk s rfl, await_ok ht, hshape data t hn]⟩
        obtain ⟨q', tr, m, c, hq', -, -, hfits⟩ := transportTurn_answered ht
        obtain rfl : q' = q := Option.some.inj (hq'.symm.trans hreq)
        simpa [BusAnswer.fits] using hfits (by simp [ho])

theorem State.Inv.sequencerTurn_goesOn {s : State} (h : s.Inv) : GoesOn s (sequencerTurn s) := by
  by_cases hs : s.seq = .idle
  · exact .inl ⟨s, by simp [sequencerTurn, hs]⟩
  · obtain ⟨-, -, i, q, hd, hreq, hq⟩ := h.busy hs
    rw [sequencerTurn_busy hs hd]
    exact exec_busy_goesOn hs hq hreq

/-- The step of a state of the invariant goes on, whoever moves. -/
theorem State.Inv.step_goesOn {s : State} (h : s.Inv) : GoesOn s (step s) := by
  unfold step nextMove
  split
  · exact h.sequencerTurn_goesOn
  · rename_i w rest _
    split
    · rename_i hr
      exact .inl (acceptWord_next_of_idle w (by simpa [State.ready] using hr))
    · exact h.sequencerTurn_goesOn
  · exact .inl ⟨_, rfl⟩
  · rename_i rest _
    exact (h.environment s.pmode s.transport rest s.tick h.memory).sequencerTurn_goesOn
  · exact .inl ⟨_, rfl⟩
  · exact .inl ⟨_, rfl⟩

/-- A valid response means that the block is idle (R59, R113). -/
theorem State.Inv.idle_of_rspValid {s : State} (h : s.Inv) (hv : s.rspValid = true) : s.seq = .idle := by
  by_contra hs
  obtain ⟨-, hn, -⟩ := h.busy hs
  simp [hn] at hv

/-! ## Silence (R112) -/

/-- The unconstrained transport does not answer at this turn: only its counter moves. -/
theorem transportTurn_of_not_answers {s : State} {q : BusRequest} (hq : s.req = some q) (htr : s.transport = .oracle)
    (ha : Config.transportAnswers s.tick q = false) : transportTurn s = .silent { s with tick := s.tick + 1 } := by
  simp [transportTurn, hq, htr, oracleAnswer, ha]

/-- A busy block with nothing else to come holds while the transport is silent. -/
theorem State.Inv.step_silent {s t : State} (h : s.Inv) (hs : s.seq ≠ .idle) (hm : s.moves = [])
    (ht : transportTurn s = .silent t) : step s = .next t := by
  obtain ⟨-, -, i, q, hd, -, hq⟩ := h.busy hs
  obtain ⟨k, hk, -⟩ := exec_waits hs hq
  rw [step_no_moves hm, sequencerTurn_busy hs hd, hk s rfl, await_silent ht]

/-! ## What is known of the sensor's registers (R110, U10) -/

/-- Whoever answers but the ideal device, the answer leaves known what `sensorKnown` says. -/
theorem transportTurn_known {s t : State} {r : BusAnswer} (h : transportTurn s = .answered r t)
    (hn : ∀ dev₀, s.transport ≠ .ideal dev₀) : ∃ q, s.req = some q ∧ t.reg = sensorKnown q r s.reg := by
  cases hq : s.req with
  | none => simp [transportTurn, hq] at h
  | some q =>
    refine ⟨q, rfl, ?_⟩
    cases htr : s.transport with
    | ideal dev₀ => exact absurd htr (hn dev₀)
    | oracle =>
      simp only [transportTurn, hq, htr] at h
      split at h
      · cases h
      · cases h; rfl
    | scripted script =>
      cases script with
      | nil => simp [transportTurn_scripted_nil hq htr] at h
      | cons a rest =>
        rw [transportTurn_scripted hq htr] at h
        cases h
        rfl

/-- What became of the trace and of the known registers: both are as they were, or the trace has grown by one answer, which leaves
known what `sensorKnown` says unless the ideal device gave it. -/
def KnownAsAnswered (s t : State) : Prop :=
  (t.log = s.log ∧ t.reg = s.reg) ∨
  ∃ q r, t.log = s.log ++ [⟨q, r⟩] ∧ ((∀ dev₀, s.transport ≠ .ideal dev₀) → t.reg = sensorKnown q r s.reg)

theorem Continued.known {i : Instr} {s t : State} (h : Continued i s t) : KnownAsAnswered s t := by
  have answered {r u} (ht : transportTurn s = .answered r u) (hlog : t.log = u.log) (hreg : t.reg = u.reg) : KnownAsAnswered s t := by
    obtain ⟨q, tr, m, k, hq, rfl, -, -⟩ := transportTurn_answered ht
    refine .inr ⟨q, r, hlog, fun hn => ?_⟩
    obtain ⟨q', hq', hknown⟩ := transportTurn_known ht hn
    obtain rfl : q = q' := Option.some.inj (hq.symm.trans hq')
    rw [hreg, hknown]
  cases h with
  | held q t _ ht =>
    obtain ⟨-, -, rfl⟩ := transportTurn_silent ht
    exact .inl ⟨rfl, rfl⟩
  | failed _ _ _ _ ht => exact answered ht rfl rfl
  | finished _ _ _ _ _ _ ht => exact answered ht rfl rfl
  | second _ _ _ _ _ _ _ ht => exact answered ht rfl rfl

/-- Acceptance records no answer. -/
theorem Accepted.log_eq {i : Instr} {s t : State} (h : Accepted i s t) : t.log = s.log := by
  cases h <;> simp

/-- A step is a reset, which empties the trace, a move of the sensor, which leaves it, or accounts for the known registers by its
answer, if any. -/
theorem Stepped.known {s t : State} (h : Stepped s t) :
    KnownAsAnswered s t ∨ (t.log = [] ∧ ∃ rest, s.moves = .hostReset :: rest) ∨
      (t.log = s.log ∧ ((∃ cells rest, s.moves = .sample cells :: rest) ∨ ∃ rest, s.moves = .sensorPowerOn :: rest)) := by
  cases h with
  | idled => exact .inl (.inl (by simp))
  | continued i _ _ _ hc => exact .inl (by simpa [KnownAsAnswered] using hc.known)
  | illegalWord => exact .inl (.inl (by simp))
  | accepted w rest i _ _ _ _ ha =>
    obtain ⟨hreg, -⟩ := ha.sensor
    exact .inl (.inl ⟨by simpa using ha.log_eq, by simpa using hreg⟩)
  | reset rest hm => exact .inr (.inl ⟨rfl, rest, hm⟩)
  | sampled cells rest hm => exact .inr (.inr ⟨by simp, .inl ⟨cells, rest, hm⟩⟩)
  | poweredOn rest hm => exact .inr (.inr ⟨by simp, .inr ⟨rest, hm⟩⟩)

/-- A step that records an answer of another transport than the ideal device leaves known what `sensorKnown` says. -/
theorem Stepped.reg_of_answered {s t : State} {q : BusRequest} {r : BusAnswer} (h : Stepped s t)
    (hn : ∀ dev₀, s.transport ≠ .ideal dev₀) (hlog : t.log = s.log ++ [⟨q, r⟩]) : t.reg = sensorKnown q r s.reg := by
  obtain (⟨hsame, -⟩ | ⟨q', r', hlog', hknown⟩) | ⟨hnil, -⟩ | ⟨hsame, -⟩ := h.known
  · simp [hsame] at hlog
  · obtain ⟨rfl, rfl⟩ : q' = q ∧ r' = r := by simpa [hlog'] using hlog
    exact hknown hn
  · simp [hnil] at hlog
  · simp [hsame] at hlog

end Sys2Proof.Machine
end

section
/-!
The statements about exceptions: errors of the transport, refusals, and what never stops the block (60_exceptions.md).
-/

namespace Sys2Proof.Machine

/-- Settles O25: the answer is recorded and ends the command (`exec_fails`). -/
theorem busErrorEndsTheCommand : Obligations.BusErrorEndsTheCommand := fun _ _ _ _ _ hs hq ht => exec_fails hs hq ht

/-- Settles O26: of the steps that leave a new response only a waiting command's turn has the status `BUS_ERROR`
(`Accepted.status_ne_busError`), on an error alone (`Continued.busError`), to its own transaction (`State.Inv.log_of_answered`). -/
theorem busErrorHasOneCause : Obligations.BusErrorHasOneCause := by
  intro s t h hst hv hstatus hnew
  have unchanged (hrsp : t.rsp = s.rsp) (hvalid : t.rspValid = s.rspValid) : False := by
    obtain hn | hn := hnew
    · simp [hvalid, hn] at hv
    · exact hn hrsp
  cases step_next hst with
  | idled => exact (unchanged (by simp) (by simp)).elim
  | continued i _ hs hd hc =>
    obtain ⟨-, hinvalid, -⟩ := h.busy hs
    obtain ⟨q, e, u, hq, ht, rfl⟩ := hc.busError (by simpa using hinvalid) hv hstatus
    obtain ⟨hreq, hlog⟩ := h.atTurn.log_of_answered (by simpa using hs) (by simpa using hd) hq ht
    exact ⟨q, e, i, by simpa using hreq, hd, by simpa using hq, by simpa using hlog, packResponse_error _, rfl, rfl⟩
  | illegalWord => simp at hstatus
  | accepted w rest i _ _ _ _ ha => exact absurd hstatus (ha.status_ne_busError hv)
  | reset => cases hv
  | sampled => exact (unchanged (by simp) (by simp)).elim
  | poweredOn => exact (unchanged (by simp) (by simp)).elim

/-- Settles O29: the word does not decode (`refusedByEncoding_of_error`). -/
theorem illegalWordIsAnsweredAtOnce : Obligations.IllegalWordIsAnsweredAtOnce := fun s _ _ rest hs hr hm hd =>
  refusedByEncoding_of_error hd s rest hs hr hm

/-- Settles O30: both refusals raise `Illegal`, which in `IDLE` writes the response alone (`raiseIllegal_of_idle`). -/
theorem refusalsByStateAnswerIllegal : Obligations.RefusalsByStateAnswerIllegal := by
  intro i s hs hr
  rw [← raiseIllegal_of_idle hs hr]
  refine ⟨fun hn ho => exec_refuses_without_handle hs ho hn, ?_⟩
  rintro ad rfl ho
  rw [exec_new_of_idle ad hs, if_pos ho]

/-- Settles O31: the scripted answer is recorded either way, and either end of a command writes the response, the request and the
phase alone. -/
theorem failureLeavesWhatSuccessLeaves : Obligations.FailureLeavesWhatSuccessLeaves := by
  intro i s q e data script hs hi hlast hq hn
  obtain ⟨k, hk, -, hend, -⟩ := exec_waits hs hi
  obtain ⟨v, hv⟩ := hend hlast data hn
  have resumes (r : BusAnswer) : exec i { s with transport := .scripted (r :: script) } =
      await { s with transport := .scripted (r :: script) } k := hk { s with transport := .scripted (r :: script) } rfl
  have answer (r : BusAnswer) := transportTurn_scripted (s := { s with transport := .scripted (r :: script) }) hq rfl
  exact ⟨_, _, (resumes _).trans (await_err (answer (.err e))),
    (resumes _).trans ((await_ok (answer (.ok data))).trans (hv _)), rfl, rfl, rfl, rfl⟩

/-- Settles O33: every step goes on (`State.Inv.step_goesOn`), and the invariant of the next state says the rest. -/
theorem nothingStopsTheBlock : Obligations.NothingStopsTheBlock := by
  intro s h
  have hstep : GoesOn s (step s) := h.step_goesOn
  refine ⟨fun f hf => ?_, fun ho => ?_, fun t ht hv => ?_⟩
  · obtain ⟨t, ht⟩ | ⟨-, why, hw⟩ := hstep
    · cases hf.symm.trans ht
    · cases hf.symm.trans hw
  · exact hstep.resolve_right fun ⟨hne, _⟩ => hne ho
  · have hidle := (stepKeepsTheInvariant s t h ht).idle_of_rspValid hv
    exact ⟨hidle, by simp [State.ready, hidle]⟩

/-- Settles O36, by induction on the number of steps: each is silent (`State.Inv.step_silent`), or the transport answers there. -/
theorem blockWaitsUntilItIsAnswered : Obligations.BlockWaitsUntilItIsAnswered := by
  intro s q n h hs hq htr hm
  induction n generalizing s with
  | zero => exact .inl rfl
  | succ n ih =>
    cases ha : Config.transportAnswers s.tick q with
    | true => exact .inr ⟨0, by omega, ha⟩
    | false =>
      have hstep := h.step_silent hs hm (transportTurn_of_not_answers hq htr ha)
      rw [run_next n hstep]
      obtain hrun | ⟨k, hk, hans⟩ :=
        ih { s with tick := s.tick + 1 } (h.environment s.pmode s.transport s.moves _ h.memory) hs hq htr hm
      · exact .inl (by rw [hrun, Nat.add_right_comm, Nat.add_assoc])
      · exact .inr ⟨k + 1, by omega, by rwa [Nat.add_right_comm, Nat.add_assoc] at hans⟩

/-- Settles O37: without a word and a reset an idle block's step is idle or the sensor's. -/
theorem idleBlockDoesNothing : Obligations.IdleBlockDoesNothing := by
  intro s t hs hnw hnr hst
  cases step_next hst with
  | idled => simp [State.blockView, State.hostView, State.readResponse, State.ready]
  | continued i _ hb => exact absurd hs hb
  | illegalWord w rest e _ hm => exact absurd hm (hnw w rest)
  | accepted w rest i _ _ hm => exact absurd hm (hnw w rest)
  | reset rest hm => exact absurd hm (hnr rest)
  | sampled => simp [State.blockView, State.hostView, State.readResponse, State.ready]
  | poweredOn => simp [State.blockView, State.hostView, State.readResponse, State.ready]

/-- Settles O57: a step accounts for the known registers by its cause (`Stepped.known`), and an answer of another transport than the
ideal device by what `sensorKnown` leaves. -/
theorem knownRegistersChangeOnlyByTheirCauses : Obligations.KnownRegistersChangeOnlyByTheirCauses := by
  intro s t h hst
  have hstepped := step_next hst
  refine ⟨fun hns hnp hnr hlog => ?_, fun hn => ⟨fun dev a v e hlog => ?_, fun dev wbytes n e hlog => ?_, fun q data hlog b => ?_⟩⟩
  · obtain (⟨-, hreg⟩ | ⟨q, r, hgrown, -⟩) | ⟨-, rest, hm⟩ | ⟨-, ⟨cells, rest, hm⟩ | ⟨rest, hm⟩⟩ := hstepped.known
    · exact hreg
    · simp [hgrown] at hlog
    · exact absurd hm (hnr rest)
    · exact absurd hm (hns cells rest)
    · exact absurd hm (hnp rest)
  · have hreg : t.reg = s.reg.forget a.toNat := hstepped.reg_of_answered hn hlog
    rw [hreg]
    exact ⟨Memory.read_forget_same _ h.memory, fun b hb => Memory.read_forget_other _ hb⟩
  · exact hstepped.reg_of_answered hn hlog
  · have hreg : t.reg = [] := by rw [hstepped.reg_of_answered hn hlog]; simp [sensorKnown]
    rw [hreg]
    rfl

end Sys2Proof.Machine
end

section
/-!
SUPPORT. The reset of the block field by field, the first word after it, and the steps of a block whose run is over (R121 to R124,
R134).
-/

namespace Sys2Proof.Machine

/-! ## The reset of the block (R121 to R124) -/

/-- A block just reset is as a second reset leaves it. -/
theorem resetBlock_reset : resetBlock State.reset = State.reset := rfl

/-- With no transaction outstanding the sensor and the transport are not touched (R123). -/
theorem resetBlock_sensor_kept {s : State} (hq : s.req = none) :
    (resetBlock s).pmode = s.pmode ∧ (resetBlock s).reg = s.reg ∧ (resetBlock s).transport = s.transport := by
  simp [resetBlock, hq]

/-- With one outstanding nothing is known of the sensor, and the transport is unconstrained (R124, assumption 13). -/
theorem resetBlock_sensor_unknown {s : State} (hq : s.req ≠ none) :
    (resetBlock s).pmode = .unknown ∧ (resetBlock s).reg = [] ∧ (resetBlock s).transport = .oracle := by
  simp [resetBlock, Option.isSome_iff_ne_none.mpr hq]

theorem step_hostReset {s : State} {rest : List Move} (hm : s.moves = .hostReset :: rest) :
    step s = .next (resetBlock { s with moves := rest }) := by
  simp only [step, nextMove, hm]

/-- The trace is empty when nothing has been answered and nothing is outstanding (R56). -/
theorem trace_eq_nil_iff {s : State} : s.trace = [] ↔ s.log = [] ∧ s.req = none := by
  cases hq : s.req with
  | none => simp [State.trace, hq]
  | some q => simp [State.trace, hq]

/-! ## A word at the port of a block without a handle (R105, V-F1) -/

/-- Without a handle no command goes on after its acceptance: it is refused, or it is `NEW`. -/
theorem Accepted.ends_of_unowned {i : Instr} {s t : State} (h : Accepted i s t) (ho : s.owned = false) :
    t.seq = .idle ∧ t.rspValid = true ∧ t.req = none := by
  cases h with
  | illegal => simp
  | constructed => simp
  | released _ ho' => simp [ho] at ho'
  | issued _ _ ho' => simp [ho] at ho'

/-- Whatever the word, a block without a handle ends it as it accepts it, and the trace does not grow. -/
theorem acceptWord_ends_of_unowned {s : State} (w : CommandWord) (hs : s.seq = .idle) (ho : s.owned = false) :
    ∃ t, acceptWord w s = .next t ∧ t.seq = .idle ∧ t.rspValid = true ∧ t.req = none ∧ t.log = s.log := by
  obtain ⟨t, ht⟩ := acceptWord_next_of_idle w hs
  refine ⟨t, ht, ?_⟩
  obtain ⟨-, -, rfl⟩ | ⟨i, -, ha⟩ := acceptWord_next hs ht
  · simp
  · obtain ⟨hidle, hvalid, hreq⟩ := ha.ends_of_unowned ho
    exact ⟨hidle, hvalid, hreq, ha.log_eq⟩

theorem step_presentWord (w : CommandWord) (s : State) :
    step (presentWord w s) = acceptWord w { s with seq := .idle, req := none } := rfl

/-! ## A run that is over (R107, R134) -/

theorem State.runOver_iff {s : State} : s.runOver = true ↔ s.ready = true ∧ ∀ m ∈ s.moves, m.isPresent = false := by
  simp [State.runOver]

/-- An idle block that is given neither a word nor a reset always has a next state, and each step takes one move (R107). -/
theorem step_idle_next {s : State} (hs : s.seq = .idle) (hnw : ∀ w rest, s.moves ≠ .present w :: rest)
    (hnr : ∀ rest, s.moves ≠ .hostReset :: rest) : ∃ t, step s = .next t ∧ t.moves = s.moves.tail := by
  cases hm : s.moves with
  | nil => exact ⟨s, by simp [step_no_moves hm, sequencerTurn, hs], hm⟩
  | cons m rest =>
    cases m with
    | present w => exact absurd hm (hnw w rest)
    | hostReset => exact absurd hm (hnr rest)
    | transport => exact ⟨{ s with moves := rest }, by simp [step, nextMove, hm, sequencerTurn, hs], rfl⟩
    | sample cells =>
      exact ⟨{ s with moves := rest, reg := s.reg.writeAll cells }, by simp only [step, nextMove, hm], rfl⟩
    | sensorPowerOn =>
      exact ⟨{ s with moves := rest, pmode := .idle, reg := [] }, by simp only [step, nextMove, hm], rfl⟩

/-- One step after the end of a run: the block and its host's view stay (`idleBlockDoesNothing`), and the run stays over. -/
theorem step_of_runOver {s : State} (hover : s.runOver = true) (hnr : .hostReset ∉ s.moves) :
    ∃ t, step s = .next t ∧ t.blockView = s.blockView ∧ t.hostView = s.hostView ∧ t.runOver = true ∧ .hostReset ∉ t.moves := by
  obtain ⟨hready, hwords⟩ := State.runOver_iff.mp hover
  have hs : s.seq = .idle := by simpa [State.ready] using hready
  have hword : ∀ w rest, s.moves ≠ .present w :: rest := fun w rest hm => by
    simpa [Move.isPresent] using hwords (.present w) (by simp [hm])
  have hreset : ∀ rest, s.moves ≠ .hostReset :: rest := fun rest hm => hnr (by simp [hm])
  obtain ⟨t, ht, hmoves⟩ := step_idle_next hs hword hreset
  obtain ⟨hblock, hhost⟩ := idleBlockDoesNothing s t hs hword hreset ht
  have hready' : t.ready = s.ready := congrArg Prod.snd hhost
  have hsub : ∀ m ∈ t.moves, m ∈ s.moves := fun m hm => List.mem_of_mem_tail (hmoves ▸ hm)
  exact ⟨t, ht, hblock, hhost, State.runOver_iff.mpr ⟨hready'.trans hready, fun m hm => hwords m (hsub m hm)⟩,
    fun hm => hnr (hsub _ hm)⟩

/-- Any number of steps after the end of a run. -/
theorem run_of_runOver (n : Nat) {s : State} (hover : s.runOver = true) (hnr : .hostReset ∉ s.moves) :
    ∃ t, run n s = .next t ∧ t.blockView = s.blockView ∧ t.hostView = s.hostView ∧ t.runOver = true := by
  induction n generalizing s with
  | zero => exact ⟨s, rfl, rfl, rfl, hover⟩
  | succ n ih =>
    obtain ⟨t, ht, hblock, hhost, hover', hnr'⟩ := step_of_runOver hover hnr
    obtain ⟨u, hu, hblock', hhost', hover''⟩ := ih hover' hnr'
    exact ⟨u, (run_next n ht).trans hu, hblock'.trans hblock, hhost'.trans hhost, hover''⟩

/-- An idle block without a valid response has had no command since its reset: no handle, nothing answered (R21, R134). -/
theorem State.Inv.responded_or_fresh {s : State} (h : s.Inv) (hs : s.seq = .idle) :
    s.rspValid = true ∨ (s.owned = false ∧ s.log = []) := by
  simpa [State.freshOk, hs] using h.fresh

end Sys2Proof.Machine
end

section
/-!
The statements about the reset of the block, the first word after it and the end of a run (70_reset_and_hazards.md).
-/

namespace Sys2Proof.Machine

/-- Settles O38: the invariant says what is outstanding and what has been answered in `IDLE`, and a run that is over stays so
(`run_of_runOver`). -/
theorem runsAreOverOnlyInIdle : Obligations.RunsAreOverOnlyInIdle := by
  intro n s h hover hnr
  have hs : s.seq = .idle := by simpa [State.ready] using (State.runOver_iff.mp hover).1
  have hreq : s.req = none := h.idle_req hs
  refine ⟨hreq, ?_, run_of_runOver n hover hnr⟩
  exact (h.responded_or_fresh hs).imp_right fun ⟨ho, hlog⟩ => ⟨ho, trace_eq_nil_iff.mpr ⟨hlog, hreq⟩⟩

/-- Settles O39: after reset there is no handle, and no word goes on without one (`acceptWord_ends_of_unowned`). -/
theorem firstWordAfterResetEndsAtOnce : Obligations.FirstWordAfterResetEndsAtOnce := by
  intro w
  rw [withFetchWord_eq_presentWord, step_presentWord]
  obtain ⟨t, ht, hidle, hvalid, hreq, hlog⟩ :=
    acceptWord_ends_of_unowned (s := { State.reset with seq := .idle, req := none }) w rfl rfl
  exact ⟨t, ht, hidle, hvalid, hreq, trace_eq_nil_iff.mpr ⟨hlog, hreq⟩⟩

/-- Settles O40: the fields of `State.reset`, and what the trace and the ports read from them. -/
theorem resetValues : Obligations.ResetValues :=
  ⟨rfl, rfl, rfl, rfl, trace_eq_nil_iff.mpr ⟨rfl, rfl⟩, rfl, rfl⟩

/-- Settles O41: the step is `resetBlock`, which keeps the sensor and the transport unless a transaction was outstanding
(`resetBlock_sensor_kept`, `resetBlock_sensor_unknown`). -/
theorem resetOfTheBlock : Obligations.ResetOfTheBlock := fun _ _ hm =>
  ⟨_, step_hostReset hm, rfl, rfl, rfl, rfl, trace_eq_nil_iff.mpr ⟨rfl, rfl⟩, rfl,
    fun hq => resetBlock_sensor_kept hq, fun hq => resetBlock_sensor_unknown hq⟩

/-- Settles O42: every reset of the block meets the invariant, and `State.reset` is one (`resetBlock_reset`). -/
theorem resetMeetsTheInvariant : Obligations.ResetMeetsTheInvariant := by
  rw [Obligations.ResetMeetsTheInvariant, ← resetBlock_reset]
  exact resetBlock_inv reset_memory_wf

end Sys2Proof.Machine
end
